-- ==== Sys2Proof/Word.lean ====
section
/-! DEFINITION. The word types of the core: bytes, 16-bit words, 12-bit addresses, nibbles and register numbers
(spec 00_scope.md §6, 30_encoding.md R72). -/

namespace Sys2Proof

/-- `u8`: a register, a timer, a memory byte, the immediate `kk`. -/
abbrev Byte := BitVec 8

/-- `u16`: an opcode, `pc`, `I`, a stack entry. -/
abbrev Word := BitVec 16

/-- The 12-bit address field `nnn`. -/
abbrev Addr12 := BitVec 12

/-- A 4-bit field: the family selector `op`, the row count `n`, the XY sub-selector. -/
abbrev Nibble := BitVec 4

/-- A register number, `x` or `y`: one of sixteen (R20). -/
abbrev Reg := Fin 16

/-- The number of VF, the flag register (R21). -/
abbrev VF : Reg := 15

end Sys2Proof
end

