-- ==== Sys2Proof/Config.lean ====
section
/-! DEFINITION. The implementation parameters of the core (spec 00_scope.md R4) and the free values the environment
supplies (R5, 10_state.md R34). A `Config` is fixed for a machine; `State` carries it, so that one step function covers
every configuration. -/

namespace Sys2Proof

/-- `BNNN_MODE` (R4, R79, D2): what a word of family 0xB is. -/
inductive BnnnMode where
  /-- `fault`: every `Bnnn` is illegal (the default) -/
  | fault
  /-- `jump_v0`: `Bnnn` is JP V0, addr -/
  | jumpV0
  deriving DecidableEq, Repr

/-- `VF_DEST_ORDER` (R4, R140, D5): the order in which a flag-writing ALU operation writes its result and VF. -/
inductive VfDestOrder where
  /-- operands latched, the result written, then the flag (the default) -/
  | flagLast
  /-- operands latched, the flag written, then the result -/
  | resultLast
  /-- the flag written, then the operands read again for the result -/
  | docSequential
  deriving DecidableEq, Repr

/-- The parameters of R4 that the source leaves open. -/
structure Config where
  /-- `BNNN_MODE` -/
  bnnnMode : BnnnMode
  /-- `VF_DEST_ORDER` -/
  vfDestOrder : VfDestOrder
  /-- `FONT`: the bytes of addresses 0–79 (R53) -/
  font : Vector Byte 80
  /-- `clock_hz`: the pacing rate; no semantic effect (R272, D27) -/
  clockHz : Nat
  deriving DecidableEq, Repr

/-- The default of the parameter `FONT`: the table of R53, glyph by glyph. -/
def Config.standardFontBytes : List Byte :=
  [0xF0, 0x90, 0x90, 0x90, 0xF0] ++ [0x20, 0x60, 0x20, 0x20, 0x70] ++
  [0xF0, 0x10, 0xF0, 0x80, 0xF0] ++ [0xF0, 0x10, 0xF0, 0x10, 0xF0] ++
  [0x90, 0x90, 0xF0, 0x10, 0x10] ++ [0xF0, 0x80, 0xF0, 0x10, 0xF0] ++
  [0xF0, 0x80, 0xF0, 0x90, 0xF0] ++ [0xF0, 0x10, 0x20, 0x40, 0x40] ++
  [0xF0, 0x90, 0xF0, 0x90, 0xF0] ++ [0xF0, 0x90, 0xF0, 0x10, 0xF0] ++
  [0xF0, 0x90, 0xF0, 0x90, 0x90] ++ [0xE0, 0x90, 0xE0, 0x90, 0xE0] ++
  [0xF0, 0x80, 0x80, 0x80, 0xF0] ++ [0xE0, 0x90, 0x90, 0x90, 0xE0] ++
  [0xF0, 0x80, 0xF0, 0x80, 0xF0] ++ [0xF0, 0x80, 0xF0, 0x80, 0x80]

/-- The default font as the parameter's type. -/
def Config.standardFont : Vector Byte 80 := ⟨Config.standardFontBytes.toArray, rfl⟩

/-- The defaults of R4. -/
def Config.default : Config where
  bnnnMode := .fault
  vfDestOrder := .flagLast
  font := Config.standardFont
  clockHz := 500

/-- FREE VALUE: the keypad the host leaves before the step that follows draw `n` (R28, R37, D29). No body: nothing
constrains it. -/
opaque Config.freeKeys : Nat → Vector Bool 16

/-- FREE VALUE: the `tick` input of the step that follows draw `n` (R239, D25). -/
opaque Config.freeTick : Nat → Bool

/-- FREE VALUE: the random byte of the step that follows draw `n` (R152, D28). -/
opaque Config.freeRnd : Nat → Byte

end Sys2Proof
end

