-- ==== Sys2Proof/Syntax.lean ====
section
/-! DEFINITION. The syntax of the instruction set: one constructor for each row of the opcode map
(spec 30_encoding.md R75, opcode_table.json), in the table's order. -/

namespace Sys2Proof

/-- An instruction with its operands. `x`, `y` are register numbers, `kk` an immediate byte, `n` an immediate nibble,
`nnn` an address (R72, R73). -/
inductive Instr where
  /-- `00E0` CLS -/
  | cls
  /-- `00EE` RET -/
  | ret
  /-- `1nnn` JP addr -/
  | jp (nnn : Addr12)
  /-- `2nnn` CALL addr -/
  | call (nnn : Addr12)
  /-- `3xkk` SE Vx, byte -/
  | seByte (x : Reg) (kk : Byte)
  /-- `4xkk` SNE Vx, byte -/
  | sneByte (x : Reg) (kk : Byte)
  /-- `5xy0` SE Vx, Vy -/
  | seReg (x y : Reg)
  /-- `6xkk` LD Vx, byte -/
  | ldByte (x : Reg) (kk : Byte)
  /-- `7xkk` ADD Vx, byte -/
  | addByte (x : Reg) (kk : Byte)
  /-- `8xy0` LD Vx, Vy -/
  | ldReg (x y : Reg)
  /-- `8xy1` OR Vx, Vy -/
  | orReg (x y : Reg)
  /-- `8xy2` AND Vx, Vy -/
  | andReg (x y : Reg)
  /-- `8xy3` XOR Vx, Vy -/
  | xorReg (x y : Reg)
  /-- `8xy4` ADD Vx, Vy -/
  | addReg (x y : Reg)
  /-- `8xy5` SUB Vx, Vy -/
  | subReg (x y : Reg)
  /-- `8xy6` SHR Vx; `y` is the don't-care field of R80, kept so that the word is kept -/
  | shr (x y : Reg)
  /-- `8xy7` SUBN Vx, Vy -/
  | subnReg (x y : Reg)
  /-- `8xyE` SHL Vx; `y` is the don't-care field of R80, kept so that the word is kept -/
  | shl (x y : Reg)
  /-- `9xy0` SNE Vx, Vy -/
  | sneReg (x y : Reg)
  /-- `Annn` LD I, addr -/
  | ldI (nnn : Addr12)
  /-- `Bnnn` JP V0, addr; exists only when `BNNN_MODE = jump_v0` (R79) -/
  | jpV0 (nnn : Addr12)
  /-- `Cxkk` RND Vx, byte -/
  | rnd (x : Reg) (kk : Byte)
  /-- `Dxyn` DRW Vx, Vy, n -/
  | drw (x y : Reg) (n : Nibble)
  /-- `Ex9E` SKP Vx -/
  | skp (x : Reg)
  /-- `ExA1` SKNP Vx -/
  | sknp (x : Reg)
  /-- `Fx07` LD Vx, DT -/
  | ldVxDt (x : Reg)
  /-- `Fx0A` LD Vx, K -/
  | ldVxK (x : Reg)
  /-- `Fx15` LD DT, Vx -/
  | ldDtVx (x : Reg)
  /-- `Fx18` LD ST, Vx -/
  | ldStVx (x : Reg)
  /-- `Fx1E` ADD I, Vx -/
  | addI (x : Reg)
  /-- `Fx29` LD F, Vx -/
  | ldF (x : Reg)
  /-- `Fx33` LD B, Vx -/
  | ldB (x : Reg)
  /-- `Fx55` LD [I], Vx -/
  | storeRegs (x : Reg)
  /-- `Fx65` LD Vx, [I] -/
  | loadRegs (x : Reg)
  deriving DecidableEq, Repr

end Sys2Proof
end

