-- ==== Sys2Proof/Decode.lean ====
section
/-! DEFINITION. The decoder and dispatch ROM, the encoder, and the opcode map as a table
(spec 30_encoding.md R70–R80, 20_memory.md R54). -/

namespace Sys2Proof

/-! ## Byte order and fields -/

/-- The opcode of two consecutive bytes, big-endian: `hi` is bits 15–8 (R54, R103). -/
def composeWord (hi lo : Byte) : Word := hi ++ lo

/-- Bits 15–8 of an opcode, the byte at the lower address (R54). -/
def highByte (w : Word) : Byte := w.extractLsb' 8 8

/-- Bits 7–0 of an opcode, the byte at the higher address (R54). -/
def lowByte (w : Word) : Byte := w.extractLsb' 0 8

/-- `op = w[15:12]`, the family selector (R72). -/
def opField (w : Word) : Nibble := w.extractLsb' 12 4

/-- `x = w[11:8]` (R72). -/
def xField (w : Word) : Reg := (w.extractLsb' 8 4).toFin

/-- `y = w[7:4]` (R72). -/
def yField (w : Word) : Reg := (w.extractLsb' 4 4).toFin

/-- `n = w[3:0]`, also the sub-selector of the XY format (R72, R74). -/
def nField (w : Word) : Nibble := w.extractLsb' 0 4

/-- `kk = w[7:0]`, also the sub-selector of the X format (R72, R74). -/
def kkField (w : Word) : Byte := w.extractLsb' 0 8

/-- `nnn = w[11:0]` (R72). -/
def nnnField (w : Word) : Addr12 := w.extractLsb' 0 12

/-! ## The decoder -/

/-- Why the decoder refuses. -/
inductive DecodeError where
  /-- the word is illegal (R77) -/
  | unknownOpcode (w : Word)
  /-- fewer than two bytes were given: no instruction is shorter than two bytes (R70) -/
  | truncated
  deriving DecidableEq, Repr

/-- Family 0x0, selected by the whole word (R74, R78). -/
def decode0 (w : Word) : Except DecodeError Instr :=
  if w = 0x00E0#16 then .ok .cls
  else if w = 0x00EE#16 then .ok .ret
  else .error (.unknownOpcode w)

/-- Family 0x8, selected by the low nibble (R74, R76). -/
def decode8 (w : Word) : Except DecodeError Instr :=
  match (nField w).toNat with
  | 0x0 => .ok (.ldReg (xField w) (yField w))
  | 0x1 => .ok (.orReg (xField w) (yField w))
  | 0x2 => .ok (.andReg (xField w) (yField w))
  | 0x3 => .ok (.xorReg (xField w) (yField w))
  | 0x4 => .ok (.addReg (xField w) (yField w))
  | 0x5 => .ok (.subReg (xField w) (yField w))
  | 0x6 => .ok (.shr (xField w) (yField w))
  | 0x7 => .ok (.subnReg (xField w) (yField w))
  | 0xE => .ok (.shl (xField w) (yField w))
  | _ => .error (.unknownOpcode w)

/-- Family 0xE, selected by the low byte (R74, R76). -/
def decodeE (w : Word) : Except DecodeError Instr :=
  if kkField w = 0x9E#8 then .ok (.skp (xField w))
  else if kkField w = 0xA1#8 then .ok (.sknp (xField w))
  else .error (.unknownOpcode w)

/-- Family 0xF, selected by the low byte (R74, R76). -/
def decodeF (w : Word) : Except DecodeError Instr :=
  if kkField w = 0x07#8 then .ok (.ldVxDt (xField w))
  else if kkField w = 0x0A#8 then .ok (.ldVxK (xField w))
  else if kkField w = 0x15#8 then .ok (.ldDtVx (xField w))
  else if kkField w = 0x18#8 then .ok (.ldStVx (xField w))
  else if kkField w = 0x1E#8 then .ok (.addI (xField w))
  else if kkField w = 0x29#8 then .ok (.ldF (xField w))
  else if kkField w = 0x33#8 then .ok (.ldB (xField w))
  else if kkField w = 0x55#8 then .ok (.storeRegs (xField w))
  else if kkField w = 0x65#8 then .ok (.loadRegs (xField w))
  else .error (.unknownOpcode w)

/-- The decode function of R76, total on every word: one operation, or `unknownOpcode`. -/
def decode (m : BnnnMode) (w : Word) : Except DecodeError Instr :=
  match (opField w).toNat with
  | 0x0 => decode0 w
  | 0x1 => .ok (.jp (nnnField w))
  | 0x2 => .ok (.call (nnnField w))
  | 0x3 => .ok (.seByte (xField w) (kkField w))
  | 0x4 => .ok (.sneByte (xField w) (kkField w))
  | 0x5 => if nField w = 0#4 then .ok (.seReg (xField w) (yField w)) else .error (.unknownOpcode w)
  | 0x6 => .ok (.ldByte (xField w) (kkField w))
  | 0x7 => .ok (.addByte (xField w) (kkField w))
  | 0x8 => decode8 w
  | 0x9 => if nField w = 0#4 then .ok (.sneReg (xField w) (yField w)) else .error (.unknownOpcode w)
  | 0xA => .ok (.ldI (nnnField w))
  | 0xB => if m = .jumpV0 then .ok (.jpV0 (nnnField w)) else .error (.unknownOpcode w)
  | 0xC => .ok (.rnd (xField w) (kkField w))
  | 0xD => .ok (.drw (xField w) (yField w) (nField w))
  | 0xE => decodeE w
  | 0xF => decodeF w
  | _ => .error (.unknownOpcode w)   -- no 4-bit selector is left

/-- The decoder on bytes, total on any bytes: the instruction of the first two and the bytes after it (R54, R70). -/
def decodeBytes (m : BnnnMode) : List Byte → Except DecodeError (Instr × List Byte)
  | hi :: lo :: rest =>
    match decode m (composeWord hi lo) with
    | .ok i => .ok (i, rest)
    | .error e => .error e
  | [_] => .error .truncated
  | [] => .error .truncated

/-! ## The encoder -/

/-- A register number as the bits of its field. -/
def regBits (r : Reg) : Nibble := BitVec.ofFin r

/-- Format A: `op nnn` (R71). -/
def encodeA (op : Nibble) (nnn : Addr12) : Word := op ++ nnn

/-- Format XK: `op x kk` (R71). -/
def encodeXK (op : Nibble) (x : Reg) (kk : Byte) : Word := op ++ regBits x ++ kk

/-- Format XY with its sub-selector, and format XYN with its count: `op x y n` (R71). -/
def encodeXY (op : Nibble) (x y : Reg) (n : Nibble) : Word := op ++ regBits x ++ regBits y ++ n

/-- Format X with its sub-selector byte: `op x s8` (R71). -/
def encodeX (op : Nibble) (x : Reg) (s8 : Byte) : Word := op ++ regBits x ++ s8

/-- The word of an instruction, from the patterns of R75. -/
def encode : Instr → Word
  | .cls => 0x00E0
  | .ret => 0x00EE
  | .jp nnn => encodeA 0x1 nnn
  | .call nnn => encodeA 0x2 nnn
  | .seByte x kk => encodeXK 0x3 x kk
  | .sneByte x kk => encodeXK 0x4 x kk
  | .seReg x y => encodeXY 0x5 x y 0x0
  | .ldByte x kk => encodeXK 0x6 x kk
  | .addByte x kk => encodeXK 0x7 x kk
  | .ldReg x y => encodeXY 0x8 x y 0x0
  | .orReg x y => encodeXY 0x8 x y 0x1
  | .andReg x y => encodeXY 0x8 x y 0x2
  | .xorReg x y => encodeXY 0x8 x y 0x3
  | .addReg x y => encodeXY 0x8 x y 0x4
  | .subReg x y => encodeXY 0x8 x y 0x5
  | .shr x y => encodeXY 0x8 x y 0x6
  | .subnReg x y => encodeXY 0x8 x y 0x7
  | .shl x y => encodeXY 0x8 x y 0xE
  | .sneReg x y => encodeXY 0x9 x y 0x0
  | .ldI nnn => encodeA 0xA nnn
  | .jpV0 nnn => encodeA 0xB nnn
  | .rnd x kk => encodeXK 0xC x kk
  | .drw x y n => encodeXY 0xD x y n
  | .skp x => encodeX 0xE x 0x9E
  | .sknp x => encodeX 0xE x 0xA1
  | .ldVxDt x => encodeX 0xF x 0x07
  | .ldVxK x => encodeX 0xF x 0x0A
  | .ldDtVx x => encodeX 0xF x 0x15
  | .ldStVx x => encodeX 0xF x 0x18
  | .addI x => encodeX 0xF x 0x1E
  | .ldF x => encodeX 0xF x 0x29
  | .ldB x => encodeX 0xF x 0x33
  | .storeRegs x => encodeX 0xF x 0x55
  | .loadRegs x => encodeX 0xF x 0x65

/-- The bytes of an instruction as memory holds them, the high byte first (R54). -/
def encodeBytes (i : Instr) : List Byte := [highByte (encode i), lowByte (encode i)]

/-! ## The opcode map as a table -/

/-- The `mask` and `match` of an instruction's row of R75. -/
def Instr.maskMatch : Instr → Word × Word
  | .cls => (0xFFFF, 0x00E0)
  | .ret => (0xFFFF, 0x00EE)
  | .jp _ => (0xF000, 0x1000)
  | .call _ => (0xF000, 0x2000)
  | .seByte _ _ => (0xF000, 0x3000)
  | .sneByte _ _ => (0xF000, 0x4000)
  | .seReg _ _ => (0xF00F, 0x5000)
  | .ldByte _ _ => (0xF000, 0x6000)
  | .addByte _ _ => (0xF000, 0x7000)
  | .ldReg _ _ => (0xF00F, 0x8000)
  | .orReg _ _ => (0xF00F, 0x8001)
  | .andReg _ _ => (0xF00F, 0x8002)
  | .xorReg _ _ => (0xF00F, 0x8003)
  | .addReg _ _ => (0xF00F, 0x8004)
  | .subReg _ _ => (0xF00F, 0x8005)
  | .shr _ _ => (0xF00F, 0x8006)
  | .subnReg _ _ => (0xF00F, 0x8007)
  | .shl _ _ => (0xF00F, 0x800E)
  | .sneReg _ _ => (0xF00F, 0x9000)
  | .ldI _ => (0xF000, 0xA000)
  | .jpV0 _ => (0xF000, 0xB000)
  | .rnd _ _ => (0xF000, 0xC000)
  | .drw _ _ _ => (0xF000, 0xD000)
  | .skp _ => (0xF0FF, 0xE09E)
  | .sknp _ => (0xF0FF, 0xE0A1)
  | .ldVxDt _ => (0xF0FF, 0xF007)
  | .ldVxK _ => (0xF0FF, 0xF00A)
  | .ldDtVx _ => (0xF0FF, 0xF015)
  | .ldStVx _ => (0xF0FF, 0xF018)
  | .addI _ => (0xF0FF, 0xF01E)
  | .ldF _ => (0xF0FF, 0xF029)
  | .ldB _ => (0xF0FF, 0xF033)
  | .storeRegs _ => (0xF0FF, 0xF055)
  | .loadRegs _ => (0xF0FF, 0xF065)

/-- The 34 rows of R75 as (mask, match), in the table's order. -/
def opcodeRows : List (Word × Word) :=
  [(0xFFFF, 0x00E0), (0xFFFF, 0x00EE), (0xF000, 0x1000), (0xF000, 0x2000), (0xF000, 0x3000), (0xF000, 0x4000),
    (0xF00F, 0x5000), (0xF000, 0x6000), (0xF000, 0x7000)] ++
  [(0xF00F, 0x8000), (0xF00F, 0x8001), (0xF00F, 0x8002), (0xF00F, 0x8003), (0xF00F, 0x8004), (0xF00F, 0x8005),
    (0xF00F, 0x8006), (0xF00F, 0x8007), (0xF00F, 0x800E), (0xF00F, 0x9000)] ++
  [(0xF000, 0xA000), (0xF000, 0xB000), (0xF000, 0xC000), (0xF000, 0xD000), (0xF0FF, 0xE09E), (0xF0FF, 0xE0A1)] ++
  [(0xF0FF, 0xF007), (0xF0FF, 0xF00A), (0xF0FF, 0xF015), (0xF0FF, 0xF018), (0xF0FF, 0xF01E), (0xF0FF, 0xF029),
    (0xF0FF, 0xF033), (0xF0FF, 0xF055), (0xF0FF, 0xF065)]

/-- The word `w` matches the row `r`: its masked bits are the row's (R75). -/
def matchesRow (w : Word) (r : Word × Word) : Bool := decide (w &&& r.1 = r.2)

/-! ## The host's reading of a table word -/

/-- The instruction the decoder reads from the bits `w` of an opcode-table row of `nbits` bits, bits above `nbits`
zero. The bytes are laid out as memory holds them, the high byte first (R54). The decoder is that of a machine on which
every row of the table exists: the row JP V0, addr is present only when `BNNN_MODE = jump_v0` (R75, log entry 5). -/
def decodeTableWord (nbits w : Nat) : Option Instr :=
  let word : Word := BitVec.ofNat 16 (w % 2 ^ nbits)
  match decodeBytes .jumpV0 [highByte word, lowByte word] with
  | .ok (i, _) => some i
  | .error _ => none

end Sys2Proof
end

