-- ==== Sys2Proof/Machine/State.lean ====
section
/-! DEFINITION. The state of the machine as plain data: every element of spec 10_state.md R36, the input ports of a
step (00_scope.md R5), the configuration (R4), and two fields of the model's own. -/

namespace Sys2Proof.Machine

/-- Memory as (address, byte) pairs in canonical form: addresses strictly rising, no entry equal to what an unlisted
address reads as (`Memory.wf` in Machine/Ops.lean). -/
abbrev Memory := List Host.Cell

/-- The 64 × 32 one-bit pixels, a row of 64 pixels each: bit `x` of row `y` is `fb[x][y]` (R29). -/
abbrev Framebuffer := Vector (BitVec 64) 32

/-- The fault kinds (R231). -/
inductive FaultKind where
  /-- `pc` does not address two bytes of the loaded image (R102) -/
  | outOfBounds
  /-- the fetched word is illegal (R77, R104) -/
  | unknownOpcode
  /-- CALL with 16 entries on the stack (R122) -/
  | stackOverflow
  /-- RET with an empty stack (R120) -/
  | stackUnderflow
  /-- a data access above 4095, or a data write into the font region (R56, R57) -/
  | memoryAccess
  /-- SKP or SKNP with `V[x] > 15` (R217) -/
  | keyIndex
  deriving DecidableEq, Repr

/-- The kind of a faulting data access (R232). -/
inductive AccessKind where
  | read
  | write
  | fontWrite
  deriving DecidableEq, Repr

/-- The `info` of a fault record (R232). An address is a number, not a word: `I + k` does not wrap (R56). -/
inductive FaultInfo where
  /-- empty -/
  | empty
  /-- the stack depth, 16 or 0 -/
  | depth (d : Nat)
  /-- the faulting address and the kind of access -/
  | access (addr : Nat) (kind : AccessKind)
  /-- the key index -/
  | key (k : Byte)
  deriving DecidableEq, Repr

/-- A fault record (R232). Its `code` is a function of the kind (`FaultKind.code` in Machine/Ops.lean, R231). -/
structure FaultRecord where
  kind : FaultKind
  /-- `pc` at the start of the faulting step -/
  pc : Word
  /-- the fetched word; none for a fault raised before fetch -/
  opcode : Option Word
  info : FaultInfo
  deriving DecidableEq, Repr

/-- The state of the machine. -/
structure State where
  /-- V0–VF (R20); VF is the flag register (R21) -/
  V : Vector Byte 16
  /-- the index register (R22) -/
  I : Word
  /-- the program counter (R23) -/
  pc : Word
  /-- the stack depth, 0–16 (R24, R25) -/
  sp : Fin 17
  /-- the stack entries (R24) -/
  stack : Vector Word 16
  /-- the delay timer (R26) -/
  DT : Byte
  /-- the sound timer (R27) -/
  ST : Byte
  /-- the framebuffer (R29) -/
  fb : Framebuffer
  /-- the dirty flag (R30) -/
  dirty : Bool
  /-- `awaiting_key` (R31) -/
  awaitingKey : Bool
  /-- the recorded fault, if any (R32) -/
  fault : Option FaultRecord
  /-- `prog_len`, 0–3584 (R33) -/
  progLen : Fin 3585
  /-- memory (R50) -/
  mem : Memory
  /-- INPUT: the keypad as the host left it before the next step (R28) -/
  keys : Vector Bool 16
  /-- INPUT: the `tick` of the next step (R5, R239) -/
  tick : Bool
  /-- INPUT: the random byte of the next step (R5, R152) -/
  rnd : Byte
  /-- CONFIGURATION: the parameters, fixed for a machine (R4) -/
  cfg : Config
  /-- MODEL'S OWN: how many times the environment's free values have been drawn (log entry 2) -/
  draws : Nat
  /-- MODEL'S OWN: no load has succeeded and no step has completed, so `load` is still allowed (R264, log entry 7) -/
  loadOpen : Bool
  deriving DecidableEq, Repr

/-- Why a step has no next state. -/
inductive Fault where
  /-- Raised by the step of a halted core, on every path and by nothing else: "no transition", the result is the
  recorded fault again (R101). Safe: the model has no step where the hardware performs none. -/
  | halted (r : FaultRecord)
  deriving DecidableEq, Repr

/-- Why the model has no meaning for a request. -/
inductive Refusal where
  /-- Raised by an arm of `exec` whose instruction has no meaning in the model (none is left). Safe: the model stops. -/
  | notModelled (mnemonic : String)
  /-- Raised by `load` after a step or a successful load: "a model refuses" it (R264). Safe: the model stops. -/
  | loadNotAllowed
  deriving DecidableEq, Repr

/-- Machine creation with the parameters `c`: every element at its value after creation (R36, R260). Memory lists
nothing: an unlisted address reads as the font or as zero (`Memory.unlisted`, R53, D11). The input ports and the two
fields of the model's own have the values of log entries 1, 2 and 7. -/
def State.create (c : Config) : State where
  V := Vector.replicate 16 0
  I := 0
  pc := 512
  sp := 0
  stack := Vector.replicate 16 0
  DT := 0
  ST := 0
  fb := Vector.replicate 32 0
  dirty := false
  awaitingKey := false
  fault := none
  progLen := 0
  mem := []
  keys := Vector.replicate 16 false
  tick := false
  rnd := 0
  cfg := c
  draws := 0
  loadOpen := true

/-- The machine right after creation with the default parameters (R4, R260). -/
def State.reset : State := State.create Config.default

end Sys2Proof.Machine
end

