-- ==== Sys2Proof/Machine/Ops.lean ====
section
/-! DEFINITION. The named operations over memory, registers, stack, timers and framebuffer, and fault entry
(spec 10_state.md, 20_memory.md, 60_exceptions.md). -/

namespace Sys2Proof.Machine

/-! ## Memory -/

/-- What an unlisted address reads as: the byte machine creation leaves there, the font at 0–79 (R53, R261) and zero
elsewhere (R36, R51). -/
def Memory.unlisted (font : Vector Byte 80) (a : Nat) : Byte := if h : a < 80 then font[a] else 0

/-- The listed byte of an address, if there is one. -/
def Memory.lookup : Memory → Nat → Option Byte
  | [], _ => none
  | (b, v) :: m, a => if a = b then some v else Memory.lookup m a

/-- The byte at `a`. -/
def Memory.read (font : Vector Byte 80) (m : Memory) (a : Nat) : Byte :=
  (Memory.lookup m a).getD (Memory.unlisted font a)

/-- The list with `(a, v)` put in its place, in front of the first higher address. -/
def Memory.insert : Memory → Nat → Byte → Memory
  | [], a, v => [(a, v)]
  | (b, w) :: m, a, v =>
    if a < b then (a, v) :: (b, w) :: m
    else if a = b then (a, v) :: m
    else (b, w) :: Memory.insert m a v

/-- The list without `a`. -/
def Memory.remove (m : Memory) (a : Nat) : Memory := m.filter fun c => decide (c.1 ≠ a)

/-- `mem[a] <- v`: a byte equal to what an unlisted address reads as is not listed. -/
def Memory.write (font : Vector Byte 80) (m : Memory) (a : Nat) (v : Byte) : Memory :=
  if v = Memory.unlisted font a then Memory.remove m a else Memory.insert m a v

/-- The bytes `bs` written at `a`, `a + 1`, … (R55). -/
def Memory.writeBytes (font : Vector Byte 80) (m : Memory) (a : Nat) : List Byte → Memory
  | [] => m
  | b :: bs => Memory.writeBytes font (Memory.write font m a b) (a + 1) bs

/-- The canonical form: addresses strictly rising and inside memory, no entry equal to what an unlisted address reads
as. -/
def Memory.wf (font : Vector Byte 80) (m : Memory) : Bool :=
  decide (m.Pairwise fun c d => c.1 < d.1) &&
    m.all fun c => decide (c.1 < 4096) && decide (c.2 ≠ Memory.unlisted font c.1)

/-- `mem[a]` of a state. -/
def State.readByte (s : State) (a : Nat) : Byte := Memory.read s.cfg.font s.mem a

/-- The bytes at `a` to `a + n - 1` of a state, in rising order (R55). -/
def State.readBytes (s : State) (a n : Nat) : List Byte := (List.range n).map fun k => s.readByte (a + k)

/-- `mem[a + k] <- bs[k]` for each `k`, in rising order (R55). -/
def State.writeBytes (s : State) (a : Nat) (bs : List Byte) : State :=
  { s with mem := Memory.writeBytes s.cfg.font s.mem a bs }

/-- The check of `MemRead(addr, 1)`: an address above 4095 faults (R56). -/
def readCheck (a : Nat) : Option (Nat × AccessKind) := if a > 4095 then some (a, .read) else none

/-- The check of `MemWrite(addr, 1, v)`: an address above 4095 faults (R56), and so does the font region 0–79 (R57). -/
def writeCheck (a : Nat) : Option (Nat × AccessKind) :=
  if a > 4095 then some (a, .write) else if a ≤ 79 then some (a, .fontWrite) else none

/-- The fault of the lowest failing address among `base`, …, `base + n - 1`, addresses not wrapping; none if every
check passes (R56, R60). -/
def firstFailing (check : Nat → Option (Nat × AccessKind)) (base n : Nat) : Option (Nat × AccessKind) :=
  ((List.range n).map (base + ·)).findSome? check

/-! ## Registers -/

/-- `V[r]` (R20). -/
def State.readV (s : State) (r : Reg) : Byte := s.V[r]

/-- `V[r] <- b` (R20). -/
def State.writeV (s : State) (r : Reg) (b : Byte) : State := { s with V := s.V.set r b }

/-- `I <- w` (R22). -/
def State.writeI (s : State) (w : Word) : State := { s with I := w }

/-- `pc <- w` (R23). -/
def State.setPc (s : State) (w : Word) : State := { s with pc := w }

/-- The default next `pc`, `trunc16(pc + 2)` (R108). -/
def State.advance (s : State) : State := s.setPc (s.pc + 2)

/-- The next `pc` of a skip: `trunc16(pc + 4)` if its condition holds, else `trunc16(pc + 2)` (R108, R123). -/
def State.skipIf (s : State) (c : Bool) : State := s.setPc (if c then s.pc + 4 else s.pc + 2)

/-! ## Call stack -/

/-- Push `w`: write `stack[sp]`, then increment `sp`; none when the stack holds 16 entries (R24, R25). -/
def State.push (s : State) (w : Word) : Option State :=
  if h : s.sp.val < 16 then
    some { s with stack := s.stack.set s.sp.val w, sp := ⟨s.sp.val + 1, Nat.succ_lt_succ h⟩ }
  else none

/-- Pop: decrement `sp`, then read `stack[sp]`, leaving the entry unchanged; none when the stack is empty (R24, R25). -/
def State.pop (s : State) : Option (Word × State) :=
  match s.sp with
  | ⟨0, _⟩ => none
  | ⟨n + 1, h⟩ =>
    some (s.stack[n]'(Nat.lt_of_succ_lt_succ h), { s with sp := ⟨n, Nat.lt_of_succ_lt h⟩ })

/-! ## Timers -/

/-- `DT <- b` (R26). -/
def State.writeDT (s : State) (b : Byte) : State := { s with DT := b }

/-- `ST <- b` (R27). -/
def State.writeST (s : State) (b : Byte) : State := { s with ST := b }

/-- One decrement of a timer, never below 0 (R239). -/
def decrementTimer (b : Byte) : Byte := if b = 0 then 0 else b - 1

/-- `TimerTick()` (R239). -/
def State.timerTick (s : State) : State :=
  { s with DT := decrementTimer s.DT, ST := decrementTimer s.ST }

/-! ## Framebuffer and status bits -/

/-- `fb[x][y]` (R29). -/
def Framebuffer.pixel (fb : Framebuffer) (x : Fin 64) (y : Fin 32) : Bool := fb[y].getLsbD x.val

/-- `fb[x][y] <- fb[x][y] XOR 1`. -/
def Framebuffer.flip (fb : Framebuffer) (x : Fin 64) (y : Fin 32) : Framebuffer :=
  fb.set y (fb[y] ^^^ BitVec.twoPow 64 x.val)

/-- Every pixel 0. -/
def Framebuffer.blank : Framebuffer := Vector.replicate 32 0

/-- A new frame: the pixels, and `dirty <- 1` (R30). -/
def State.show (s : State) (fb : Framebuffer) : State := { s with fb := fb, dirty := true }

/-- `awaiting_key <- b` (R31). -/
def State.setAwaiting (s : State) (b : Bool) : State := { s with awaitingKey := b }

/-! ## Fetching a word -/

/-- `Fetch(pc)`: the two bytes at `pc` and `pc + 1`, big-endian (R54, R103). -/
def State.fetchWord (s : State) : Word := composeWord (s.readByte s.pc.toNat) (s.readByte (s.pc.toNat + 1))

/-! ## Faults -/

/-- The numeric code of a fault kind (R231). -/
def FaultKind.code : FaultKind → Nat
  | .outOfBounds => 1
  | .unknownOpcode => 2
  | .stackOverflow => 3
  | .stackUnderflow => 4
  | .memoryAccess => 5
  | .keyIndex => 6

/-- The `code` of a fault record (R231, R232). -/
def FaultRecord.code (r : FaultRecord) : Nat := r.kind.code

/-- The `opcode` of a fault record: none for the fault raised before fetch, else the fetched word (R232). -/
def State.faultOpcode (s : State) : FaultKind → Option Word
  | .outOfBounds => none
  | .unknownOpcode => some s.fetchWord
  | .stackOverflow => some s.fetchWord
  | .stackUnderflow => some s.fetchWord
  | .memoryAccess => some s.fetchWord
  | .keyIndex => some s.fetchWord

/-- The fault record of a fault raised in the pre-step state `s` (R232). -/
def State.faultRecord (s : State) (kind : FaultKind) (info : FaultInfo) : FaultRecord :=
  { kind := kind, pc := s.pc, opcode := s.faultOpcode kind, info := info }

/-- `fault <- r`. -/
def State.setFault (s : State) (r : FaultRecord) : State := { s with fault := some r }

/-- FAULT ENTRY, the one shared operation: applied to the pre-step state it writes `fault <- record` and nothing else
(R234). There is no handler, vector or mode, and NO RETURN from a fault: only creating a new machine clears it (R235). -/
def State.raise (s : State) (kind : FaultKind) (info : FaultInfo) : Host.Outcome State Fault Refusal :=
  .next (s.setFault (s.faultRecord kind info))

/-! ## Checked data accesses -/

/-- Store the bytes `bs` at `base`, `base + 1`, … and go on: every address is checked first; if one fails, the fault of
the lowest is raised and nothing is written (R56, R57, R60). -/
def State.storeChecked (s : State) (base : Nat) (bs : List Byte) : Host.Outcome State Fault Refusal :=
  match firstFailing writeCheck base bs.length with
  | some (a, k) => s.raise .memoryAccess (.access a k)
  | none => .next (s.writeBytes base bs).advance

/-- Read `n` bytes at `base`, `base + 1`, … and go on with `use` of them: every address is checked first; if one fails,
the fault of the lowest is raised and nothing changes (R56, R60). -/
def State.loadChecked (s : State) (base n : Nat) (use : List Byte → State) : Host.Outcome State Fault Refusal :=
  match firstFailing readCheck base n with
  | some (a, k) => s.raise .memoryAccess (.access a k)
  | none => .next (use (s.readBytes base n)).advance

end Sys2Proof.Machine
end

