-- ==== Sys2Proof/Machine/Cycle.lean ====
section
/-! DEFINITION. The stages of the step cycle around execute: the bounds check, fetch and decode, commit and clock
bookkeeping (spec 40_step_cycle.md), and the placing of a word where the next step fetches. -/

namespace Sys2Proof.Machine

/-- `InBounds(pc, prog_len)`: `pc` addresses two bytes of the loaded image (R102). -/
def inBounds (pc : Word) (progLen : Fin 3585) : Bool :=
  decide (512 ≤ pc.toNat) && decide (pc.toNat + 1 ≤ 511 + progLen.val)

/-- What the part of a step before execute comes to. -/
inductive Fetched where
  /-- the core is halted: no transition (R101) -/
  | halted (r : FaultRecord)
  /-- a fault before execute (R102, R104) -/
  | raised (o : Host.Outcome State Fault Refusal)
  /-- the decoded operation -/
  | run (i : Instr)

/-- The step cycle up to dispatch, its checks in the order of R233 (R100–R104). -/
def State.fetchDecode (s : State) : Fetched :=
  match s.fault with
  | some r => .halted r
  | none =>
    if inBounds s.pc s.progLen then
      match decode s.cfg.bnnnMode s.fetchWord with
      | .ok i => .run i
      | .error _ => .raised (s.raise .unknownOpcode .empty)
    else .raised (s.raise .outOfBounds .empty)

/-- The clock bookkeeping: at most one `TimerTick()`, if the step's `tick` is 1 (R109). It is written field by field, so
that every other field is plain even where `tick` is a free value. -/
def State.clock (s : State) : State :=
  { s with
    DT := if s.tick then s.timerTick.DT else s.DT
    ST := if s.tick then s.timerTick.ST else s.ST }

/-- The environment before the next step: the input ports take free values, one draw of each (R5, R28, R266, log entry
2). The core changes none of the three (R28). -/
def State.nextInputs (s : State) : State :=
  { s with
    keys := Config.freeKeys s.draws
    tick := Config.freeTick s.draws
    rnd := Config.freeRnd s.draws
    draws := s.draws + 1 }

/-- A step has completed: `load` is no longer allowed (R264). -/
def State.closeLoad (s : State) : State := { s with loadOpen := false }

/-- The end of a step whose execute answered `s`: if a fault was raised nothing else happens, no tick (R106, R234);
else the clock bookkeeping (R109), and the inputs of the next step. -/
def State.commit (s : State) : State :=
  match s.fault with
  | some _ => s
  | none => s.clock.closeLoad.nextInputs

/-- Where a step can fetch: `pc` if it can lie in an image at all (R102 with `prog_len` at most 3584), else the entry
point (R265). -/
def fetchableAt (pc : Word) : Word := if 512 ≤ pc.toNat ∧ pc.toNat ≤ 4094 then pc else 512

/-- The image length that covers the two bytes at `a`, and the image there was. -/
def coverLength (l : Fin 3585) (a : Word) : Fin 3585 := Fin.ofNat 3585 (max l.val (min (a.toNat - 510) 3584))

/-- `s` with the word `w` placed where the next step fetches, and all that this fetch needs (log entry 5): an address
that can lie in an image, an image that covers it, no fault recorded, and, for a word of family 0xB, the one parameter
value under which the row exists (R75). It stands for a `load`, so `load` is no longer allowed. -/
def State.placeWord (s : State) (w : Word) : State :=
  { s with
    mem := Memory.writeBytes s.cfg.font s.mem (fetchableAt s.pc).toNat [highByte w, lowByte w]
    pc := fetchableAt s.pc
    progLen := coverLength s.progLen (fetchableAt s.pc)
    fault := none
    loadOpen := false
    cfg := if opField w = 0xB#4 then { s.cfg with bnnnMode := .jumpV0 } else s.cfg }

end Sys2Proof.Machine
end

