-- ==== Sys2Proof/Machine/Operands.lean ====
section
/-! DEFINITION. The operand forms: immediates, register lists, the address in `I`, decimal digits, the keypad
(spec 30_encoding.md R73, 44_index_memory.md, 45_timers_keys.md). -/

namespace Sys2Proof.Machine

/-- `zext_16(nnn)` (R73). -/
def zextAddr (nnn : Addr12) : Word := nnn.setWidth 16

/-- `zext_16(V[x])` (R191, R127). -/
def zextByte (b : Byte) : Word := b.setWidth 16

/-- The base address of a data access: `I`, as a number (R56: the addresses `I + k` do not wrap). -/
def State.base (s : State) : Nat := s.I.toNat

/-- The values of V0 to Vx, in order (R193). -/
def State.regsUpTo (s : State) (x : Reg) : List Byte := s.V.toList.take (x.val + 1)

/-- `V[k] <- bs[k]` for `k` from `from`, in rising order (R194). -/
def writeRegsFrom (V : Vector Byte 16) (k : Nat) : List Byte → Vector Byte 16
  | [] => V
  | b :: bs => writeRegsFrom (V.setIfInBounds k b) (k + 1) bs

/-- `V[k] <- bs[k]` for each `k` from 0 (R194). -/
def State.writeRegs (s : State) (bs : List Byte) : State := { s with V := writeRegsFrom s.V 0 bs }

/-- The decimal digits of a byte: hundreds, tens, units (R192). -/
def decimalDigits (v : Byte) : List Byte :=
  [BitVec.ofNat 8 (v.toNat / 100), BitVec.ofNat 8 (v.toNat / 10 % 10), BitVec.ofNat 8 (v.toNat % 10)]

/-- The address of the font glyph of a value: `zext_16(V[x]) * 5`, not masked (R177). -/
def glyphAddress (v : Byte) : Word := zextByte v * 5

/-- `keys[k]`, for a key index `k` of at most 15; none for a larger one (R213, R217). -/
def State.key (s : State) (k : Byte) : Option Bool := s.keys[k.toNat]?

/-- The lowest pressed key, scanning 0 to 15 (R215). -/
def State.firstKey (s : State) : Option Nat := s.keys.toList.findIdx? id

end Sys2Proof.Machine
end

