-- ==== Sys2Proof/Machine/Flags.lean ====
section
/-! DEFINITION. The results and flags of the five flag-writing ALU operations, the order in which they are written, and
the collision flag's value (spec 42_alu.md R140, R147–R151). A flag is the whole value of VF, 0 or 1 (R21). -/

namespace Sys2Proof.Machine

/-- A flag as the value of VF (R21). -/
def flagByte (f : Bool) : Byte := if f then 1 else 0

/-- ADD: `trunc8(a + b)` (R147). -/
def addResult (a b : Byte) : Byte := BitVec.ofNat 8 (a.toNat + b.toNat)

/-- ADD: 1 iff the unbounded sum is above 255 (R147). -/
def addFlag (a b : Byte) : Bool := decide (a.toNat + b.toNat > 255)

/-- SUB: `trunc8(a - b + 256)` (R148). -/
def subResult (a b : Byte) : Byte := BitVec.ofNat 8 (a.toNat + 256 - b.toNat)

/-- SUB: 1 iff `a > b`, strictly (R148). -/
def subFlag (a b : Byte) : Bool := decide (a.toNat > b.toNat)

/-- SHR: `a >> 1`; the second operand is ignored (R149). -/
def shrResult (a _b : Byte) : Byte := a >>> 1

/-- SHR: the bit shifted out, `a[0]` (R149). -/
def shrFlag (a _b : Byte) : Bool := a.getLsbD 0

/-- SUBN: `trunc8(b - a + 256)` (R150). -/
def subnResult (a b : Byte) : Byte := BitVec.ofNat 8 (b.toNat + 256 - a.toNat)

/-- SUBN: 1 iff `b > a`, strictly (R150). -/
def subnFlag (a b : Byte) : Bool := decide (b.toNat > a.toNat)

/-- SHL: `trunc8(a << 1)`; the second operand is ignored (R151). -/
def shlResult (a _b : Byte) : Byte := a <<< 1

/-- SHL: the bit shifted out, `a[7]` (R151). -/
def shlFlag (a _b : Byte) : Bool := a.getLsbD 7

/-- Write a result `r` and a flag `f` of the operands `V[x]`, `V[y]` in the order of `VF_DEST_ORDER` (R140). -/
def State.writeFlagged (s : State) (x y : Reg) (r : Byte → Byte → Byte) (f : Byte → Byte → Bool) : State :=
  match s.cfg.vfDestOrder with
  | .flagLast => (s.writeV x (r (s.readV x) (s.readV y))).writeV VF (flagByte (f (s.readV x) (s.readV y)))
  | .resultLast => (s.writeV VF (flagByte (f (s.readV x) (s.readV y)))).writeV x (r (s.readV x) (s.readV y))
  | .docSequential =>
    let t := s.writeV VF (flagByte (f (s.readV x) (s.readV y)))
    t.writeV x (r (t.readV x) (t.readV y))

end Sys2Proof.Machine
end

