-- ==== Sys2Proof/Machine/Alu.lean ====
section
/-! DEFINITION. Meanings: the 8-bit ALU (spec 42_alu.md). None writes `pc` but to advance it, none can fault. -/

namespace Sys2Proof.Machine

/-- LD Vx, byte (R141). -/
def execLdByte (x : Reg) (kk : Byte) (s : State) : Host.Outcome State Fault Refusal :=
  .next (s.writeV x kk).advance

/-- ADD Vx, byte (R142): no flag. -/
def execAddByte (x : Reg) (kk : Byte) (s : State) : Host.Outcome State Fault Refusal :=
  .next (s.writeV x (addResult (s.readV x) kk)).advance

/-- LD Vx, Vy (R143). -/
def execLdReg (x y : Reg) (s : State) : Host.Outcome State Fault Refusal :=
  .next (s.writeV x (s.readV y)).advance

/-- OR Vx, Vy (R144). -/
def execOrReg (x y : Reg) (s : State) : Host.Outcome State Fault Refusal :=
  .next (s.writeV x (s.readV x ||| s.readV y)).advance

/-- AND Vx, Vy (R145). -/
def execAndReg (x y : Reg) (s : State) : Host.Outcome State Fault Refusal :=
  .next (s.writeV x (s.readV x &&& s.readV y)).advance

/-- XOR Vx, Vy (R146). -/
def execXorReg (x y : Reg) (s : State) : Host.Outcome State Fault Refusal :=
  .next (s.writeV x (s.readV x ^^^ s.readV y)).advance

/-- ADD Vx, Vy (R147). -/
def execAddReg (x y : Reg) (s : State) : Host.Outcome State Fault Refusal :=
  .next (s.writeFlagged x y addResult addFlag).advance

/-- SUB Vx, Vy (R148). -/
def execSubReg (x y : Reg) (s : State) : Host.Outcome State Fault Refusal :=
  .next (s.writeFlagged x y subResult subFlag).advance

/-- SHR Vx (R149); `y` is ignored. -/
def execShr (x y : Reg) (s : State) : Host.Outcome State Fault Refusal :=
  .next (s.writeFlagged x y shrResult shrFlag).advance

/-- SUBN Vx, Vy (R150). -/
def execSubnReg (x y : Reg) (s : State) : Host.Outcome State Fault Refusal :=
  .next (s.writeFlagged x y subnResult subnFlag).advance

/-- SHL Vx (R151); `y` is ignored. -/
def execShl (x y : Reg) (s : State) : Host.Outcome State Fault Refusal :=
  .next (s.writeFlagged x y shlResult shlFlag).advance

/-- RND Vx, byte (R152): the random byte is the step's input. -/
def execRnd (x : Reg) (kk : Byte) (s : State) : Host.Outcome State Fault Refusal :=
  .next (s.writeV x (s.rnd &&& kk)).advance

end Sys2Proof.Machine
end

