-- ==== Sys2Proof/Machine/Control.lean ====
section
/-! DEFINITION. Meanings: control flow (spec 41_control_flow.md). No transfer checks its target (R129). -/

namespace Sys2Proof.Machine

/-- RET (R120). -/
def execRet (s : State) : Host.Outcome State Fault Refusal :=
  match s.pop with
  | some (w, t) => .next (t.setPc (w + 2))
  | none => s.raise .stackUnderflow (.depth s.sp.val)

/-- JP addr (R121). -/
def execJp (nnn : Addr12) (s : State) : Host.Outcome State Fault Refusal := .next (s.setPc (zextAddr nnn))

/-- CALL addr (R122): the pushed address is the CALL's own. -/
def execCall (nnn : Addr12) (s : State) : Host.Outcome State Fault Refusal :=
  match s.push s.pc with
  | some t => .next (t.setPc (zextAddr nnn))
  | none => s.raise .stackOverflow (.depth s.sp.val)

/-- SE Vx, byte (R123). -/
def execSeByte (x : Reg) (kk : Byte) (s : State) : Host.Outcome State Fault Refusal :=
  .next (s.skipIf (decide (s.readV x = kk)))

/-- SNE Vx, byte (R124). -/
def execSneByte (x : Reg) (kk : Byte) (s : State) : Host.Outcome State Fault Refusal :=
  .next (s.skipIf (decide (s.readV x ≠ kk)))

/-- SE Vx, Vy (R125). -/
def execSeReg (x y : Reg) (s : State) : Host.Outcome State Fault Refusal :=
  .next (s.skipIf (decide (s.readV x = s.readV y)))

/-- SNE Vx, Vy (R126). -/
def execSneReg (x y : Reg) (s : State) : Host.Outcome State Fault Refusal :=
  .next (s.skipIf (decide (s.readV x ≠ s.readV y)))

/-- JP V0, addr (R127); on a machine with `BNNN_MODE = fault` the word is illegal (R79, log entry 6). -/
def execJpV0 (nnn : Addr12) (s : State) : Host.Outcome State Fault Refusal :=
  match s.cfg.bnnnMode with
  | .jumpV0 => .next (s.setPc (zextAddr nnn + zextByte (s.readV 0)))
  | .fault => s.raise .unknownOpcode .empty

end Sys2Proof.Machine
end

