-- ==== Sys2Proof/Machine/Display.lean ====
section
/-! DEFINITION. Meanings: the sprite-XOR-blit framebuffer engine (spec 43_display.md). -/

namespace Sys2Proof.Machine

/-- A drawing under way: the pixels and the collision so far. -/
abbrev Blit := Framebuffer × Bool

/-- Column `col` of a sprite row `bits` at screen row `py` (already reduced), the sprite starting at column `cx`: if bit
`7 - col` is set, the pixel is flipped, and a pixel that was on is a collision (R170, R172). -/
def drawColumn (bits : Byte) (cx : Nat) (py : Fin 32) (acc : Blit) (col : Nat) : Blit :=
  if bits.getLsbD (7 - col) then
    let px : Fin 64 := Fin.ofNat 64 (cx + col)
    (Framebuffer.flip acc.1 px py, acc.2 || Framebuffer.pixel acc.1 px py)
  else acc

/-- The eight columns of one sprite row (R172). -/
def drawRow (bits : Byte) (cx : Nat) (py : Fin 32) (acc : Blit) : Blit :=
  (List.range 8).foldl (drawColumn bits cx py) acc

/-- The sprite rows `bytes`, the first at screen row `cy`, every coordinate reduced modulo the screen (R172, R173). -/
def drawRows (cx cy : Nat) : List Byte → Blit → Blit
  | [], acc => acc
  | bits :: rest, acc => drawRows cx (cy + 1) rest (drawRow bits cx (Fin.ofNat 32 cy) acc)

/-- The state after a sprite of the bytes `bytes` is drawn at `(V[x], V[y])`, both latched: the pixels, VF the
collision flag, `dirty` 1 (R172). -/
def State.drawSprite (s : State) (x y : Reg) (bytes : List Byte) : State :=
  let r := drawRows (s.readV x).toNat (s.readV y).toNat bytes (s.fb, false)
  (s.show r.1).writeV VF (flagByte r.2)

/-- CLS (R171). -/
def execCls (s : State) : Host.Outcome State Fault Refusal := .next (s.show Framebuffer.blank).advance

/-- DRW Vx, Vy, n (R172–R176). -/
def execDrw (x y : Reg) (n : Nibble) (s : State) : Host.Outcome State Fault Refusal :=
  s.loadChecked s.base n.toNat (s.drawSprite x y)

/-- LD F, Vx (R177). -/
def execLdF (x : Reg) (s : State) : Host.Outcome State Fault Refusal :=
  .next (s.writeI (glyphAddress (s.readV x))).advance

end Sys2Proof.Machine
end

