-- ==== Sys2Proof/Machine/IndexMemory.lean ====
section
/-! DEFINITION. Meanings: the index register and memory operations (spec 44_index_memory.md). `I` is the base address
and none of the three accesses changes it (D8). -/

namespace Sys2Proof.Machine

/-- LD I, addr (R190). -/
def execLdI (nnn : Addr12) (s : State) : Host.Outcome State Fault Refusal := .next (s.writeI (zextAddr nnn)).advance

/-- ADD I, Vx (R191): modulo 2^16, no flag. -/
def execAddI (x : Reg) (s : State) : Host.Outcome State Fault Refusal :=
  .next (s.writeI (s.I + zextByte (s.readV x))).advance

/-- LD B, Vx (R192). -/
def execLdB (x : Reg) (s : State) : Host.Outcome State Fault Refusal :=
  s.storeChecked s.base (decimalDigits (s.readV x))

/-- LD [I], Vx (R193). -/
def execStoreRegs (x : Reg) (s : State) : Host.Outcome State Fault Refusal :=
  s.storeChecked s.base (s.regsUpTo x)

/-- LD Vx, [I] (R194). -/
def execLoadRegs (x : Reg) (s : State) : Host.Outcome State Fault Refusal :=
  s.loadChecked s.base (x.val + 1) s.writeRegs

end Sys2Proof.Machine
end

