-- ==== Sys2Proof/Machine/TimersKeys.lean ====
section
/-! DEFINITION. Meanings: timers and keypad (spec 45_timers_keys.md). They read and write the timers as they stood
before the step's tick (D25); the keypad is the step's input. -/

namespace Sys2Proof.Machine

/-- LD Vx, DT (R210). -/
def execLdVxDt (x : Reg) (s : State) : Host.Outcome State Fault Refusal := .next (s.writeV x s.DT).advance

/-- LD DT, Vx (R211). -/
def execLdDtVx (x : Reg) (s : State) : Host.Outcome State Fault Refusal := .next (s.writeDT (s.readV x)).advance

/-- LD ST, Vx (R212). -/
def execLdStVx (x : Reg) (s : State) : Host.Outcome State Fault Refusal := .next (s.writeST (s.readV x)).advance

/-- SKP Vx (R213, R217). -/
def execSkp (x : Reg) (s : State) : Host.Outcome State Fault Refusal :=
  match s.key (s.readV x) with
  | some down => .next (s.skipIf down)
  | none => s.raise .keyIndex (.key (s.readV x))

/-- SKNP Vx (R214, R217). -/
def execSknp (x : Reg) (s : State) : Host.Outcome State Fault Refusal :=
  match s.key (s.readV x) with
  | some down => .next (s.skipIf (!down))
  | none => s.raise .keyIndex (.key (s.readV x))

/-- LD Vx, K (R215, R216): with no key pressed `pc` stays, and the same word is fetched again at the next step. -/
def execLdVxK (x : Reg) (s : State) : Host.Outcome State Fault Refusal :=
  match s.firstKey with
  | some k => .next ((s.writeV x (BitVec.ofNat 8 k)).setAwaiting false).advance
  | none => .next (s.setAwaiting true)

end Sys2Proof.Machine
end

