-- ==== Sys2Proof/Machine/Step.lean ====
section
/-! DEFINITION. One step of the core (spec 40_step_cycle.md R100), from the stages of Machine/Cycle.lean and `exec`. -/

namespace Sys2Proof.Machine

/-- One step: halted, a fault before execute, or execute and commit (R100, R101, R107). -/
def step (s : State) : Host.Outcome State Fault Refusal :=
  match s.fetchDecode with
  | .halted r => .fault (.halted r)
  | .raised o => o
  | .run i =>
    match exec i s with
    | .next t => .next t.commit
    | .fault r => .fault r
    | .refused r => .refused r

/-- `s` with the opcode-table word of `nbits` bits `w` placed where the next step fetches. -/
def State.withFetchWord (s : State) (nbits w : Nat) : State := s.placeWord (BitVec.ofNat 16 (w % 2 ^ nbits))

end Sys2Proof.Machine
end

