-- ==== Sys2Proof/Machine/HostPort.lean ====
section
/-! DEFINITION. The host side of the block: `load`, the inputs, the outputs, `consume_frame` (spec 00_scope.md R5, R6,
40_step_cycle.md R111, 43_display.md R178, 60_exceptions.md R242, R245, 70_reset_and_hazards.md R262–R264). The host acts
between steps only, so none of these is part of `step` (log entry 11). -/

namespace Sys2Proof.Machine

/-- The error of `load` (R245): recoverable, no state is written. -/
inductive LoadError where
  /-- the image is longer than 3584 bytes -/
  | programTooLarge
  deriving DecidableEq, Repr

/-- `load(bytes)` (R262): the image is copied to 512 and `prog_len` is its length. `fault` stands for the returned
`ProgramTooLarge`, after which the state is as before (R245); a load after a step or a second load is refused (R264). -/
def State.load (s : State) (bytes : List Byte) : Host.Outcome State LoadError Refusal :=
  if s.fault = none ∧ s.loadOpen = true then
    if h : bytes.length ≤ 3584 then
      .next { s.writeBytes 512 bytes with
        progLen := ⟨bytes.length, Nat.lt_succ_of_le h⟩
        loadOpen := false }
    else .fault .programTooLarge
  else .refused .loadNotAllowed

/-- The inputs the host and the environment leave for the next step: `keys`, `tick`, `rnd` (R5, R28, R266). -/
def State.setInputs (s : State) (keys : Vector Bool 16) (tick : Bool) (rnd : Byte) : State :=
  { s with keys := keys, tick := tick, rnd := rnd }

/-- `consume_frame` (R178): the pixels and the dirty flag as they stand; afterwards the flag is 0. -/
def State.consumeFrame (s : State) : (Framebuffer × Bool) × State := ((s.fb, s.dirty), { s with dirty := false })

/-- The output `halted`: a fault has been recorded (R5, R32). -/
def State.halted (s : State) : Bool := s.fault.isSome

/-- The output `step_result` after a step: `none` for `Ok`, else the fault record (R5, R110, R234). -/
def State.stepResult (s : State) : Option FaultRecord := s.fault

/-- The output `dt`, `delay_timer()` (R242). -/
def State.delayTimer (s : State) : Byte := s.DT

/-- The output `st`, `sound_timer()` (R242). -/
def State.soundTimer (s : State) : Byte := s.ST

/-- Audio should be playing: the sound timer is above 0 (R241). -/
def State.audio (s : State) : Bool := decide (s.ST ≠ 0)

/-- What the host and the environment can do to the machine between two steps (R6, R111, R266). -/
inductive HostAction where
  | load (bytes : List Byte)
  | setInputs (keys : Vector Bool 16) (tick : Bool) (rnd : Byte)
  | consumeFrame
  deriving DecidableEq, Repr

/-- The state after a host action; a load that fails or is refused leaves it as it was (R245, R264). -/
def HostAction.apply (s : State) : HostAction → State
  | .load bytes =>
    match s.load bytes with
    | .next t => t
    | .fault _ => s
    | .refused _ => s
  | .setInputs k t r => s.setInputs k t r
  | .consumeFrame => s.consumeFrame.2

end Sys2Proof.Machine
end

