-- ==== Sys2Proof/Safety.lean ====
section
/-! DEFINITION. What claims about the machine are stated in: running and halted states, runs, the invariant, and the
shapes of an instruction's effect (what it writes and that it writes nothing else). The shapes read state fields and
single bytes only, never the operations the meanings are made of. -/

namespace Sys2Proof.Machine

/-! ## Runs -/

/-- The inputs of one step (spec 00_scope.md R5). -/
structure StepInputs where
  keys : Vector Bool 16
  tick : Bool
  rnd : Byte
  deriving DecidableEq, Repr

/-- One step under given inputs: `step(keys, tick, rnd)` (R100). -/
def stepWith (a : StepInputs) (s : State) : Host.Outcome State Fault Refusal :=
  step (s.setInputs a.keys a.tick a.rnd)

/-- A run of steps, each under its own inputs, stopping where a step has no next state. -/
def runWith : List StepInputs → State → Host.Outcome State Fault Refusal
  | [], s => .next s
  | a :: rest, s =>
    match stepWith a s with
    | .next t => runWith rest t
    | .fault r => .fault r
    | .refused r => .refused r

/-- The states a machine can come to: created with some parameters, then steps and host actions in any order. -/
inductive Reachable : State → Prop where
  | created (c : Config) : Reachable (State.create c)
  | stepped {s t : State} : Reachable s → step s = .next t → Reachable t
  | hostActed {s : State} (a : HostAction) : Reachable s → Reachable (a.apply s)

/-- A good state: no fault is recorded. A halted state is never a good end (R101, R112). -/
def State.running (s : State) : Bool := s.fault.isNone

/-! ## The invariant -/

/-- The `info` of a record has the form its kind gives it (R232). -/
def FaultRecord.infoFits (r : FaultRecord) : Prop :=
  match r.kind with
  | .outOfBounds => r.info = .empty
  | .unknownOpcode => r.info = .empty
  | .stackOverflow => r.info = .depth 16
  | .stackUnderflow => r.info = .depth 0
  | .memoryAccess => ∃ a k, r.info = .access a k
  | .keyIndex => ∃ k : Byte, r.info = .key k ∧ 15 < k.toNat

/-- What holds of the machine at creation and is kept by every step and every host action. -/
structure State.Inv (s : State) : Prop where
  /-- memory is in canonical form -/
  memCanonical : Memory.wf s.cfg.font s.mem = true
  /-- no byte of the font region is listed, so it reads as at creation (R52) -/
  fontIntact : ∀ c ∈ s.mem, 80 ≤ c.1
  /-- every return address on the stack is the address of a word of the image (R122 after R102) -/
  stackInImage : ∀ j : Fin 16, j.val < s.sp.val → inBounds s.stack[j] s.progLen = true
  /-- `awaiting_key` is 1 only while the core is parked in LD Vx,K: the word at `pc` is one (R31, R216) -/
  parked : s.awaitingKey = true →
    inBounds s.pc s.progLen = true ∧ ∃ x, decode s.cfg.bnnnMode s.fetchWord = .ok (.ldVxK x)
  /-- a recorded fault describes the state it was raised in (R232, R234) -/
  recorded : ∀ r, s.fault = some r →
    r.pc = s.pc ∧ r.opcode = s.faultOpcode r.kind ∧ r.infoFits ∧
      (r.kind = .outOfBounds ↔ inBounds s.pc s.progLen = false)
  /-- before the first step nothing has been pushed and nothing waits (R264) -/
  unstarted : s.loadOpen = true → s.sp.val = 0 ∧ s.awaitingKey = false

/-! ## Shapes of effects -/

/-- The instruction executes in `s` and the state it leaves meets `P`. -/
def Completes (i : Instr) (s : State) (P : State → Prop) : Prop := ∃ t, exec i s = .next t ∧ P t

/-- Every byte of memory reads as before. -/
def SameBytes (s t : State) : Prop := ∀ a, t.readByte a = s.readByte a

/-- The 4 bits of a register field. -/
def fieldBits (x : Reg) : BitVec 4 := BitVec.ofNat 4 x.val

/-- `w` is the word of `i`, in both directions, on every machine on which `i` exists. -/
def HasEncoding (i : Instr) (w : Word) : Prop :=
  encode i = w ∧ ∀ m, i.wellFormed m = true → decode m w = .ok i

/-- Only `pc` changes, to `p`. -/
def OnlyPc (p : Word) (s t : State) : Prop := t.pc = p ∧ t = { s with pc := t.pc } ∧ SameBytes s t

/-- `V[x]` becomes `v`, `pc` advances by 2, nothing else changes: no other register, VF among them unless it is `x`, no
other element, no byte of memory. -/
def OnlyReg (x : Reg) (v : Byte) (s t : State) : Prop :=
  t.V[x] = v ∧ (∀ q : Reg, q ≠ x → t.V[q] = s.V[q]) ∧ t.pc = s.pc + 2 ∧
    t = { s with V := t.V, pc := t.pc } ∧ SameBytes s t

/-- `I` becomes `v`, `pc` advances by 2, nothing else changes. -/
def OnlyIndex (v : Word) (s t : State) : Prop :=
  t.I = v ∧ t.pc = s.pc + 2 ∧ t = { s with I := t.I, pc := t.pc } ∧ SameBytes s t

/-- The effect of a flag-writing ALU operation with result `r` and flag `f` of the operands `V[x]`, `V[y]`, for the
order of R140; nothing else changes. -/
def FlaggedWrite (x y : Reg) (r f : Byte → Byte → Byte) (s t : State) : Prop :=
  (match s.cfg.vfDestOrder with
    | .flagLast => t.V[VF] = f s.V[x] s.V[y] ∧ (x ≠ VF → t.V[x] = r s.V[x] s.V[y])
    | .resultLast => t.V[x] = r s.V[x] s.V[y] ∧ (x ≠ VF → t.V[VF] = f s.V[x] s.V[y])
    | .docSequential =>
      t.V[x] = r (if x = VF then f s.V[x] s.V[y] else s.V[x]) (if y = VF then f s.V[x] s.V[y] else s.V[y]) ∧
        (x ≠ VF → t.V[VF] = f s.V[x] s.V[y])) ∧
    (∀ q : Reg, q ≠ x → q ≠ VF → t.V[q] = s.V[q]) ∧ t.pc = s.pc + 2 ∧
    t = { s with V := t.V, pc := t.pc } ∧ SameBytes s t

/-- The bytes `v k` for `k < n` are stored at `base`, `base + 1`, …; every other byte reads as before; `pc` advances by
2; nothing else changes. -/
def OnlyBytes (base n : Nat) (v : Nat → Byte) (s t : State) : Prop :=
  (∀ k, k < n → t.readByte (base + k) = v k) ∧
    (∀ a, a < base ∨ base + n ≤ a → t.readByte a = s.readByte a) ∧ t.pc = s.pc + 2 ∧
    t = { s with mem := t.mem, pc := t.pc }

/-- The word at `pc`, as a number: `mem[pc] * 256 + mem[pc + 1]` (R103). -/
def wordAtPc (s : State) : Word :=
  BitVec.ofNat 16 ((s.readByte s.pc.toNat).toNat * 256 + (s.readByte (s.pc.toNat + 1)).toNat)

/-- The instruction raises a fault in `s`: the record of R232 is written and nothing else changes (R234). -/
def Raises (i : Instr) (s : State) (kind : FaultKind) (info : FaultInfo) : Prop :=
  exec i s = .next { s with
    fault := some { kind := kind, pc := s.pc, opcode := some (wordAtPc s), info := info } }

/-- `p` is the `pc` after instruction `i` in `s` where it raises nothing (R108): the target of a jump or call, the popped
address plus 2, `pc + 4` for a skip whose condition holds, `pc` itself for a key wait with no key pressed, else
`pc + 2`. -/
def NextPc (i : Instr) (s : State) (p : Word) : Prop :=
  match i with
  | .jp nnn | .call nnn => p = BitVec.ofNat 16 nnn.toNat
  | .jpV0 nnn => p = BitVec.ofNat 16 (nnn.toNat + s.V[(0 : Reg)].toNat)
  | .ret => ∃ j : Fin 16, s.sp.val = j.val + 1 ∧ p = s.stack[j] + 2
  | .seByte x kk => p = if s.V[x] = kk then s.pc + 4 else s.pc + 2
  | .sneByte x kk => p = if s.V[x] = kk then s.pc + 2 else s.pc + 4
  | .seReg x y => p = if s.V[x] = s.V[y] then s.pc + 4 else s.pc + 2
  | .sneReg x y => p = if s.V[x] = s.V[y] then s.pc + 2 else s.pc + 4
  | .skp x => ∃ k : Fin 16, s.V[x].toNat = k.val ∧ p = if s.keys[k] then s.pc + 4 else s.pc + 2
  | .sknp x => ∃ k : Fin 16, s.V[x].toNat = k.val ∧ p = if s.keys[k] then s.pc + 2 else s.pc + 4
  | .ldVxK _ => p = if ∃ k : Fin 16, s.keys[k] = true then s.pc + 2 else s.pc
  | .cls | .ldByte _ _ | .addByte _ _ | .ldReg _ _ | .orReg _ _ | .andReg _ _ | .xorReg _ _ | .addReg _ _ | .subReg _ _
  | .shr _ _ | .subnReg _ _ | .shl _ _ | .ldI _ | .rnd _ _ | .drw _ _ _ | .ldVxDt _ | .ldDtVx _ | .ldStVx _ | .addI _
  | .ldF _ | .ldB _ | .storeRegs _ | .loadRegs _ => p = s.pc + 2

/-- A pixel of a frame. -/
def pixelAt (s : State) (px : Fin 64) (py : Fin 32) : Bool := s.fb[py].getLsbD px.val

/-- The sprite of DRW `x`, `y`, `n` in `s` has a set bit that lands on the pixel (R170, R172, R173). -/
def SpriteCovers (s : State) (x y : Reg) (n : Nibble) (px : Fin 64) (py : Fin 32) : Prop :=
  ∃ row col : Nat, row < n.toNat ∧ col < 8 ∧ (s.readByte (s.I.toNat + row)).getLsbD (7 - col) = true ∧
    px.val = (s.V[x].toNat + col) % 64 ∧ py.val = (s.V[y].toNat + row) % 32

end Sys2Proof.Machine
end

