-- ==== Sys2Proof/Certificates/Slice0/Obligations.lean ====
section
/-! DEFINITION. The statements about the machine, each from the numbered rules of spec/ that its docstring names. -/

open Sys2Proof Sys2Proof.Machine

/-! ## Creation, encoding -/

/-- R36: every element of a machine just created with any parameters, memory byte by byte. (The zeros the source does not
state are the spec's own decision D24, log entries 8 and 10.) -/
def Obligations.CreationValues : Prop :=
  ∀ c : Config, ∀ s, s = State.create c →
    (∀ x : Reg, s.V[x] = 0) ∧ s.I = 0 ∧ s.pc = 512 ∧ s.sp = 0 ∧ (∀ j : Fin 16, s.stack[j] = 0) ∧ s.DT = 0 ∧ s.ST = 0 ∧
    (∀ px py, pixelAt s px py = false) ∧ s.dirty = false ∧ s.awaitingKey = false ∧ s.fault = none ∧ s.progLen = 0 ∧
    (∀ a, ∀ h : a < 80, s.readByte a = c.font[a]) ∧ (∀ a, 80 ≤ a → s.readByte a = 0)

/-- The machine after reset has the default parameters of R4 and, in memory, the default font of R53 glyph by glyph (the
spec takes that table from general knowledge, D23, log entry 10). -/
def Obligations.DefaultParameters : Prop :=
  State.reset = State.create
    { bnnnMode := .fault, vfDestOrder := .flagLast, font := Config.standardFont, clockHz := 500 } ∧
  (∀ d : Fin 16, State.reset.readBytes (5 * d.val) 5 =
    [[0xF0, 0x90, 0x90, 0x90, 0xF0], [0x20, 0x60, 0x20, 0x20, 0x70], [0xF0, 0x10, 0xF0, 0x80, 0xF0],
      [0xF0, 0x10, 0xF0, 0x10, 0xF0], [0x90, 0x90, 0xF0, 0x10, 0x10], [0xF0, 0x80, 0xF0, 0x10, 0xF0],
      [0xF0, 0x80, 0xF0, 0x90, 0xF0], [0xF0, 0x10, 0x20, 0x40, 0x40], [0xF0, 0x90, 0xF0, 0x90, 0xF0],
      [0xF0, 0x90, 0xF0, 0x10, 0xF0], [0xF0, 0x90, 0xF0, 0x90, 0x90], [0xE0, 0x90, 0xE0, 0x90, 0xE0],
      [0xF0, 0x80, 0x80, 0x80, 0xF0], [0xE0, 0x90, 0x90, 0x90, 0xE0], [0xF0, 0x80, 0xF0, 0x80, 0xF0],
      [0xF0, 0x80, 0xF0, 0x80, 0x80]][d.val]!)

/-- Words written out from R75, R76 and the vectors of 95_test_vectors.md decode to what they stand for. -/
def Obligations.SpecWordsDecode : Prop :=
  decode .fault 0x00E0 = .ok .cls ∧ decode .fault 0x00EE = .ok .ret ∧ decode .fault 0x1234 = .ok (.jp 0x234) ∧
  decode .fault 0x83A6 = .ok (.shr 3 10) ∧ decode .fault 0xC0BE = .ok (.rnd 0 0xBE) ∧
  decode .fault 0xDF15 = .ok (.drw 15 1 5) ∧ decode .fault 0xE5A1 = .ok (.sknp 5) ∧
  decode .fault 0xF265 = .ok (.loadRegs 2) ∧ decode .jumpV0 0xB300 = .ok (.jpV0 0x300) ∧
  decode .fault 0xB300 = .error (.unknownOpcode 0xB300) ∧ decode .fault 0x0000 = .error (.unknownOpcode 0x0000)

/-- Decoding the encoding of a well-formed instruction gives it back, as a word and as bytes in memory order, whatever
follows. -/
def Obligations.DecodeOfEncode : Prop :=
  ∀ (m : BnnnMode) (i : Instr) (rest : List Byte), i.wellFormed m = true →
    decode m (encode i) = .ok i ∧ decodeBytes m (encodeBytes i ++ rest) = .ok (i, rest)

/-- Each legal word has one meaning: what a word decodes to is well formed and encodes to that word. -/
def Obligations.EncodeOfDecode : Prop :=
  ∀ (m : BnnnMode) (w : Word) (i : Instr), decode m w = .ok i → encode i = w ∧ i.wellFormed m = true

/-- R75: every word matches at most one row of the opcode map, a decoded word matches its instruction's row, and a word
that matches no row is refused. -/
def Obligations.OpcodeMapUnambiguous : Prop :=
  ∀ w : Word, (opcodeRows.filter (matchesRow w)).length ≤ 1 ∧
    (∀ m i, decode m w = .ok i → i.maskMatch ∈ opcodeRows ∧ matchesRow w i.maskMatch = true) ∧
    (∀ m, (∀ r ∈ opcodeRows, matchesRow w r = false) → decode m w = .error (.unknownOpcode w))

/-- R77: the illegal words are exactly those listed, and the step that fetches one raises UnknownOpcodeFault (code 2)
and changes nothing else. -/
def Obligations.IllegalWords : Prop :=
  (∀ (m : BnnnMode) (op x y n : Nibble) (w : Word), w = op ++ x ++ y ++ n →
    (decode m w = .error (.unknownOpcode w) ↔
      (op = 0x0 ∧ w ≠ 0x00E0 ∧ w ≠ 0x00EE) ∨
      ((op = 0x5 ∨ op = 0x9) ∧ n ≠ 0) ∨
      (op = 0x8 ∧ n ∈ [0x8#4, 0x9#4, 0xA#4, 0xB#4, 0xC#4, 0xD#4, 0xF#4]) ∨
      (op = 0xE ∧ y ++ n ∉ [0x9E#8, 0xA1#8]) ∨
      (op = 0xF ∧ y ++ n ∉ [0x07#8, 0x0A#8, 0x15#8, 0x18#8, 0x1E#8, 0x29#8, 0x33#8, 0x55#8, 0x65#8]) ∨
      (op = 0xB ∧ m = .fault))) ∧
  (∀ s : State, s.fault = none → 512 ≤ s.pc.toNat → s.pc.toNat + 1 ≤ 511 + s.progLen.val →
    decode s.cfg.bnnnMode (wordAtPc s) = .error (.unknownOpcode (wordAtPc s)) →
    ∃ r : FaultRecord, step s = .next { s with fault := some r } ∧ r.kind = .unknownOpcode ∧ r.code = 2 ∧
      r.pc = s.pc ∧ r.opcode = some (wordAtPc s) ∧ r.info = .empty)

/-! ## The step cycle -/

/-- From R100: with no fault recorded and the bytes at `pc` in the image, the step runs the instruction the word at `pc`
decodes to: what `exec` leaves, then at most one decrement of each timer if `tick` is 1, then the inputs of the next
step; and if `exec` raised a fault, what it leaves and nothing more. The last four fields are the model's (log entries
1, 2 and 7). -/
def Obligations.StepRunsDecodedInstruction : Prop :=
  ∀ (s t : State) (i : Instr), s.fault = none → 512 ≤ s.pc.toNat → s.pc.toNat + 1 ≤ 511 + s.progLen.val →
    decode s.cfg.bnnnMode (wordAtPc s) = .ok i → exec i s = .next t →
    (t.fault = none → step s = .next { t with
      DT := if s.tick then (if t.DT = 0 then 0 else t.DT - 1) else t.DT
      ST := if s.tick then (if t.ST = 0 then 0 else t.ST - 1) else t.ST
      keys := Config.freeKeys s.draws
      tick := Config.freeTick s.draws
      rnd := Config.freeRnd s.draws
      draws := s.draws + 1
      loadOpen := false }) ∧
    (t.fault ≠ none → step s = .next t)

/-- From R105, R108 and R234: every instruction answers a next state in every state, and that state is one of two. Its own
effect: `pc` is what R108 gives the instruction, and no fault, no image length, no input and no parameter changes. Or the
entry of a fault: the record, with the `pc` and word of the instruction and information of the form of its kind, and
nothing else; that fault is never OutOfBoundsFault, which a step raises before fetch. (That fault entry is a next state is
the model's choice, log entry 3.) -/
def Obligations.EveryInstructionAnswers : Prop :=
  ∀ (i : Instr) (s : State), ∃ t, exec i s = .next t ∧
    ((NextPc i s t.pc ∧ t.fault = s.fault ∧ t = { s with
        V := t.V, I := t.I, pc := t.pc, sp := t.sp, stack := t.stack, DT := t.DT, ST := t.ST, fb := t.fb,
        dirty := t.dirty, awaitingKey := t.awaitingKey, mem := t.mem }) ∨
      (∃ r : FaultRecord, t = { s with fault := some r } ∧ r.kind ≠ .outOfBounds ∧ r.pc = s.pc ∧
        r.opcode = some (wordAtPc s) ∧ r.infoFits))

/-- R102: the step whose `pc` does not address two bytes of the loaded image raises OutOfBoundsFault (code 1, no opcode)
and changes nothing else; a step whose `pc` does, never raises it. -/
def Obligations.BoundsCheck : Prop :=
  ∀ s : State, s.fault = none →
    (¬ (512 ≤ s.pc.toNat ∧ s.pc.toNat + 1 ≤ 511 + s.progLen.val) →
      ∃ r : FaultRecord, step s = .next { s with fault := some r } ∧ r.kind = .outOfBounds ∧ r.code = 1 ∧ r.pc = s.pc ∧
        r.opcode = none ∧ r.info = .empty) ∧
    ((512 ≤ s.pc.toNat ∧ s.pc.toNat + 1 ≤ 511 + s.progLen.val) →
      ∀ t r, step s = .next t → t.fault = some r → r.kind ≠ .outOfBounds)

/-- R101: a step requested while a fault is recorded performs no transition; its result is the recorded fault again,
whatever the inputs. -/
def Obligations.HaltedCoreIsStuck : Prop :=
  ∀ (s : State) (r : FaultRecord) (a : StepInputs), s.fault = some r →
    step s = .fault (.halted r) ∧ stepWith a s = .fault (.halted r)

/-- R234: a step after which a fault is recorded has written the record and nothing else: every element keeps its value,
the timers too whatever `tick` is; the step returns the record and `halted` is 1. The record's `pc` is that of the step,
its opcode the word at `pc` (none before fetch), its information of the form of its kind. -/
def Obligations.FaultEntryWritesRecordOnly : Prop :=
  ∀ (s t : State) (r : FaultRecord), step s = .next t → t.fault = some r →
    s.fault = none ∧ t = { s with fault := some r } ∧ r.pc = s.pc ∧
    (r.kind = .outOfBounds → r.opcode = none) ∧ (r.kind ≠ .outOfBounds → r.opcode = some (wordAtPc s)) ∧ r.infoFits ∧
    t.halted = true ∧ t.stepResult = some r

/-- From R231 and R233: which instruction raises which fault at execute, and the codes. -/
def Obligations.FaultKindsByInstruction : Prop :=
  (∀ (i : Instr) (s t : State) (r : FaultRecord), s.fault = none → exec i s = .next t → t.fault = some r →
    (r.kind = .stackOverflow ∧ r.code = 3 ∧ ∃ a, i = .call a) ∨
    (r.kind = .stackUnderflow ∧ r.code = 4 ∧ i = .ret) ∨
    (r.kind = .memoryAccess ∧ r.code = 5 ∧
      ((∃ x y n, i = .drw x y n) ∨ (∃ x, i = .ldB x) ∨ (∃ x, i = .storeRegs x) ∨ ∃ x, i = .loadRegs x)) ∨
    (r.kind = .keyIndex ∧ r.code = 6 ∧ ((∃ x, i = .skp x) ∨ ∃ x, i = .sknp x)) ∨
    (r.kind = .unknownOpcode ∧ r.code = 2 ∧ s.cfg.bnnnMode = .fault ∧ ∃ a, i = .jpV0 a))

/-- R239, R109: over a step that raises nothing, each timer goes down by one if `tick` is 1 and it is not 0, and keeps
its value otherwise, from what the instruction left in it: `V[x]` for the instruction that writes it, else its value
before the step. -/
def Obligations.TimersTickOncePerStep : Prop :=
  ∀ (s t : State) (i : Instr), step s = .next t → t.fault = none →
    decode s.cfg.bnnnMode (wordAtPc s) = .ok i →
    (∀ x, i = .ldDtVx x → t.DT.toNat = if s.tick then s.V[x].toNat - 1 else s.V[x].toNat) ∧
    ((∀ x, i ≠ .ldDtVx x) → t.DT.toNat = if s.tick then s.DT.toNat - 1 else s.DT.toNat) ∧
    (∀ x, i = .ldStVx x → t.ST.toNat = if s.tick then s.V[x].toNat - 1 else s.V[x].toNat) ∧
    ((∀ x, i ≠ .ldStVx x) → t.ST.toNat = if s.tick then s.ST.toNat - 1 else s.ST.toNat)

/-! ## Control flow -/

/-- R121: JP addr. -/
def Obligations.JumpSetsPc : Prop :=
  ∀ (s : State) (nnn : Addr12), HasEncoding (.jp nnn) (0x1#4 ++ nnn) ∧
    Completes (.jp nnn) s (OnlyPc (BitVec.ofNat 16 nnn.toNat) s)

/-- R123, R124: SE Vx, byte and SNE Vx, byte. -/
def Obligations.SkipOnByte : Prop :=
  ∀ (s : State) (x : Reg) (kk : Byte),
    HasEncoding (.seByte x kk) (0x3#4 ++ fieldBits x ++ kk) ∧ HasEncoding (.sneByte x kk) (0x4#4 ++ fieldBits x ++ kk) ∧
    Completes (.seByte x kk) s (OnlyPc (if s.V[x] = kk then s.pc + 4 else s.pc + 2) s) ∧
    Completes (.sneByte x kk) s (OnlyPc (if s.V[x] = kk then s.pc + 2 else s.pc + 4) s)

/-- R125, R126: SE Vx, Vy and SNE Vx, Vy. -/
def Obligations.SkipOnRegister : Prop :=
  ∀ (s : State) (x y : Reg),
    HasEncoding (.seReg x y) (0x5#4 ++ fieldBits x ++ fieldBits y ++ 0#4) ∧
    HasEncoding (.sneReg x y) (0x9#4 ++ fieldBits x ++ fieldBits y ++ 0#4) ∧
    Completes (.seReg x y) s (OnlyPc (if s.V[x] = s.V[y] then s.pc + 4 else s.pc + 2) s) ∧
    Completes (.sneReg x y) s (OnlyPc (if s.V[x] = s.V[y] then s.pc + 2 else s.pc + 4) s)

/-- R127, R79: JP V0, addr on a machine with `BNNN_MODE = jump_v0`; on one with `fault` the word is illegal and the step
that fetches it raises UnknownOpcodeFault. -/
def Obligations.JumpV0ByMode : Prop :=
  ∀ (s : State) (nnn : Addr12),
    HasEncoding (.jpV0 nnn) (0xB#4 ++ nnn) ∧
    (s.cfg.bnnnMode = .jumpV0 →
      Completes (.jpV0 nnn) s (OnlyPc (BitVec.ofNat 16 (nnn.toNat + s.V[(0 : Reg)].toNat)) s)) ∧
    (s.cfg.bnnnMode = .fault → s.fault = none → 512 ≤ s.pc.toNat → s.pc.toNat + 1 ≤ 511 + s.progLen.val →
      wordAtPc s = 0xB#4 ++ nnn →
      step s = .next { s with fault := some ⟨.unknownOpcode, s.pc, some (0xB#4 ++ nnn), .empty⟩ })

/-- R122: CALL addr: with fewer than 16 entries it pushes its own address and jumps; with 16 it raises StackOverflow and
nothing changes. -/
def Obligations.CallPushesItsAddress : Prop :=
  ∀ (s : State) (nnn : Addr12), HasEncoding (.call nnn) (0x2#4 ++ nnn) ∧
    (s.sp.val < 16 → Completes (.call nnn) s fun t =>
      t.sp.val = s.sp.val + 1 ∧ t.pc = BitVec.ofNat 16 nnn.toNat ∧
      (∀ j : Fin 16, t.stack[j] = if j.val = s.sp.val then s.pc else s.stack[j]) ∧
      t = { s with sp := t.sp, stack := t.stack, pc := t.pc } ∧ SameBytes s t) ∧
    (s.sp.val = 16 → Raises (.call nnn) s .stackOverflow (.depth 16))

/-- R120: RET: with an entry on the stack it pops it into `pc`, plus 2, and the entry keeps its value; with none it
raises StackUnderflow and nothing changes. -/
def Obligations.ReturnPopsAndAdvances : Prop :=
  ∀ s : State, HasEncoding .ret 0x00EE ∧
    (∀ j : Fin 16, s.sp.val = j.val + 1 → Completes .ret s fun t =>
      t.pc = s.stack[j] + 2 ∧ t.sp.val = j.val ∧ t = { s with sp := t.sp, pc := t.pc } ∧ SameBytes s t) ∧
    (s.sp.val = 0 → Raises .ret s .stackUnderflow (.depth 0))

/-- The source's property of R120 and R122 (95_test_vectors.md W5): CALL then RET comes back to the instruction after the
CALL, with the depth as before. -/
def Obligations.CallThenReturn : Prop :=
  ∀ (s : State) (nnn : Addr12), s.sp.val < 16 → ∃ t u, exec (.call nnn) s = .next t ∧ exec .ret t = .next u ∧
    u.pc = s.pc + 2 ∧ u.sp = s.sp ∧ u = { s with pc := u.pc, stack := u.stack } ∧
    ∀ j : Fin 16, j.val ≠ s.sp.val → u.stack[j] = s.stack[j]

/-! ## The ALU -/

/-- R141, R143: LD Vx, byte and LD Vx, Vy. -/
def Obligations.LoadByteAndCopy : Prop :=
  ∀ (s : State) (x y : Reg) (kk : Byte),
    HasEncoding (.ldByte x kk) (0x6#4 ++ fieldBits x ++ kk) ∧ Completes (.ldByte x kk) s (OnlyReg x kk s) ∧
    HasEncoding (.ldReg x y) (0x8#4 ++ fieldBits x ++ fieldBits y ++ 0x0#4) ∧
    Completes (.ldReg x y) s (OnlyReg x s.V[y] s)

/-- R142: ADD Vx, byte wraps at 8 bits and sets no flag. -/
def Obligations.AddByteWithoutCarry : Prop :=
  ∀ (s : State) (x : Reg) (kk : Byte), HasEncoding (.addByte x kk) (0x7#4 ++ fieldBits x ++ kk) ∧
    Completes (.addByte x kk) s (OnlyReg x (BitVec.ofNat 8 ((s.V[x].toNat + kk.toNat) % 256)) s)

/-- R144, R145, R146: OR, AND and XOR bit by bit; VF is not reset. -/
def Obligations.BitwiseOperations : Prop :=
  ∀ (s : State) (x y : Reg),
    HasEncoding (.orReg x y) (0x8#4 ++ fieldBits x ++ fieldBits y ++ 0x1#4) ∧
    HasEncoding (.andReg x y) (0x8#4 ++ fieldBits x ++ fieldBits y ++ 0x2#4) ∧
    HasEncoding (.xorReg x y) (0x8#4 ++ fieldBits x ++ fieldBits y ++ 0x3#4) ∧
    ∃ o a e : Byte, Completes (.orReg x y) s (OnlyReg x o s) ∧ Completes (.andReg x y) s (OnlyReg x a s) ∧
      Completes (.xorReg x y) s (OnlyReg x e s) ∧
      ∀ k, k < 8 → (o.getLsbD k = (s.V[x].getLsbD k || s.V[y].getLsbD k)) ∧
        (a.getLsbD k = (s.V[x].getLsbD k && s.V[y].getLsbD k)) ∧
        (e.getLsbD k = (s.V[x].getLsbD k != s.V[y].getLsbD k))

/-- R152: RND Vx, byte is the step's random byte under the mask, for every random byte. -/
def Obligations.RandomByteUnderMask : Prop :=
  ∀ (s : State) (x : Reg) (kk r : Byte), HasEncoding (.rnd x kk) (0xC#4 ++ fieldBits x ++ kk) ∧
    (s.rnd = r → ∃ v : Byte, Completes (.rnd x kk) s (OnlyReg x v s) ∧
      ∀ k, k < 8 → v.getLsbD k = (r.getLsbD k && kk.getLsbD k))

/-- R147: ADD Vx, Vy: the truncated sum, VF 1 iff the unbounded sum is above 255, in the order of VF_DEST_ORDER. -/
def Obligations.AddSetsCarry : Prop :=
  ∀ (s : State) (x y : Reg), HasEncoding (.addReg x y) (0x8#4 ++ fieldBits x ++ fieldBits y ++ 0x4#4) ∧
    Completes (.addReg x y) s (FlaggedWrite x y (fun a b => a + b)
      (fun a b => if a.toNat + b.toNat > 255 then 1 else 0) s)

/-- R148: SUB Vx, Vy: the truncated difference, VF 1 iff `Vx > Vy` strictly. -/
def Obligations.SubtractSetsStrictGreater : Prop :=
  ∀ (s : State) (x y : Reg), HasEncoding (.subReg x y) (0x8#4 ++ fieldBits x ++ fieldBits y ++ 0x5#4) ∧
    Completes (.subReg x y) s (FlaggedWrite x y (fun a b => a - b) (fun a b => if b < a then 1 else 0) s)

/-- R149: SHR Vx: half of `Vx`, VF the bit shifted out, whatever `y` is. -/
def Obligations.ShiftRight : Prop :=
  ∀ (s : State) (x y : Reg), HasEncoding (.shr x y) (0x8#4 ++ fieldBits x ++ fieldBits y ++ 0x6#4) ∧
    Completes (.shr x y) s (FlaggedWrite x x (fun a _ => BitVec.ofNat 8 (a.toNat / 2))
      (fun a _ => BitVec.ofNat 8 (a.toNat % 2)) s)

/-- R150: SUBN Vx, Vy: the reverse difference, VF 1 iff `Vy > Vx` strictly. -/
def Obligations.ReverseSubtract : Prop :=
  ∀ (s : State) (x y : Reg), HasEncoding (.subnReg x y) (0x8#4 ++ fieldBits x ++ fieldBits y ++ 0x7#4) ∧
    Completes (.subnReg x y) s (FlaggedWrite x y (fun a b => b - a) (fun a b => if a < b then 1 else 0) s)

/-- R151: SHL Vx: twice `Vx` truncated, VF the bit shifted out, whatever `y` is. -/
def Obligations.ShiftLeft : Prop :=
  ∀ (s : State) (x y : Reg), HasEncoding (.shl x y) (0x8#4 ++ fieldBits x ++ fieldBits y ++ 0xE#4) ∧
    Completes (.shl x y) s (FlaggedWrite x x (fun a _ => BitVec.ofNat 8 (2 * a.toNat))
      (fun a _ => BitVec.ofNat 8 (a.toNat / 128)) s)

/-- From R140: when neither `x` nor `y` is 0xF, the three values of VF_DEST_ORDER give the same state. -/
def Obligations.OrdersAgreeAwayFromVF : Prop :=
  ∀ (s t : State) (x y : Reg) (i : Instr) (o : VfDestOrder), x ≠ VF → y ≠ VF →
    i ∈ [Instr.addReg x y, .subReg x y, .shr x y, .subnReg x y, .shl x y] → exec i s = .next t →
    exec i { s with cfg := { s.cfg with vfDestOrder := o } } =
      .next { t with cfg := { t.cfg with vfDestOrder := o } }

/-! ## The display -/

/-- R171: CLS. -/
def Obligations.ClearScreen : Prop :=
  ∀ s : State, HasEncoding .cls 0x00E0 ∧ Completes .cls s fun t =>
    (∀ px py, pixelAt t px py = false) ∧ t.dirty = true ∧ t.pc = s.pc + 2 ∧
    t = { s with fb := t.fb, dirty := t.dirty, pc := t.pc } ∧ SameBytes s t

/-- R172, R176: DRW within memory: each pixel a set bit of the sprite lands on, coordinates modulo 64 and 32, is XORed
with 1, the others keep their value; VF is 1 iff one of them was on; `dirty` is 1; nothing else changes. With a sprite
address above 4095 it raises MemoryAccessFault at the first such address, and no pixel, VF, `dirty` or `pc` changes. -/
def Obligations.DrawXorsSprite : Prop :=
  ∀ (s : State) (x y : Reg) (n : Nibble), HasEncoding (.drw x y n) (0xD#4 ++ fieldBits x ++ fieldBits y ++ n) ∧
    (n.toNat = 0 ∨ s.I.toNat + n.toNat ≤ 4096 → Completes (.drw x y n) s fun t =>
      (∀ px py, SpriteCovers s x y n px py → pixelAt t px py = !pixelAt s px py) ∧
      (∀ px py, ¬ SpriteCovers s x y n px py → pixelAt t px py = pixelAt s px py) ∧
      ((∃ px py, SpriteCovers s x y n px py ∧ pixelAt s px py = true) → t.V[VF] = 1) ∧
      ((¬ ∃ px py, SpriteCovers s x y n px py ∧ pixelAt s px py = true) → t.V[VF] = 0) ∧
      t.dirty = true ∧ (∀ q : Reg, q ≠ VF → t.V[q] = s.V[q]) ∧ t.pc = s.pc + 2 ∧
      t = { s with fb := t.fb, dirty := t.dirty, V := t.V, pc := t.pc } ∧ SameBytes s t) ∧
    (1 ≤ n.toNat → 4096 < s.I.toNat + n.toNat →
      Raises (.drw x y n) s .memoryAccess (.access (max s.I.toNat 4096) .read))

/-- From R175: DRW with `n = 0` changes no pixel, writes 0 to VF and sets `dirty`, whatever `I` is. -/
def Obligations.DrawNothing : Prop :=
  ∀ (s : State) (x y : Reg), Completes (.drw x y 0) s fun t =>
    t.fb = s.fb ∧ t.V[VF] = 0 ∧ t.dirty = true ∧ (∀ q : Reg, q ≠ VF → t.V[q] = s.V[q]) ∧ t.pc = s.pc + 2 ∧
    t = { s with dirty := t.dirty, V := t.V, pc := t.pc } ∧ SameBytes s t

/-- R174 (43_display.md), derived: the same sprite drawn twice at the same place restores every pixel, and the second
draw sets VF to 1 exactly when a pixel of the sprite was off before the first, so on a blank screen whenever the sprite
has a set bit (log entry 12). The place is the same unless VF names a coordinate and the first draw changed it. -/
def Obligations.DrawTwiceRestores : Prop :=
  ∀ (s : State) (x y : Reg) (n : Nibble), n.toNat = 0 ∨ s.I.toNat + n.toNat ≤ 4096 →
    ∃ t, exec (.drw x y n) s = .next t ∧ (t.V[x] = s.V[x] → t.V[y] = s.V[y] → ∃ u, exec (.drw x y n) t = .next u ∧
      (∀ px py, pixelAt u px py = pixelAt s px py) ∧
      ((∃ px py, SpriteCovers s x y n px py ∧ pixelAt s px py = false) → u.V[VF] = 1) ∧
      ((∀ px py, SpriteCovers s x y n px py → pixelAt s px py = true) → u.V[VF] = 0))

/-- R177: LD F, Vx: five times `Vx`, not masked. -/
def Obligations.FontGlyphAddress : Prop :=
  ∀ (s : State) (x : Reg), HasEncoding (.ldF x) (0xF#4 ++ fieldBits x ++ 0x29#8) ∧
    Completes (.ldF x) s (OnlyIndex (BitVec.ofNat 16 (5 * s.V[x].toNat)) s)

/-! ## Index register and memory -/

/-- R190, R191: LD I, addr and ADD I, Vx (modulo 2^16, VF not written). -/
def Obligations.IndexRegisterWrites : Prop :=
  ∀ (s : State) (x : Reg) (nnn : Addr12),
    HasEncoding (.ldI nnn) (0xA#4 ++ nnn) ∧ Completes (.ldI nnn) s (OnlyIndex (BitVec.ofNat 16 nnn.toNat) s) ∧
    HasEncoding (.addI x) (0xF#4 ++ fieldBits x ++ 0x1E#8) ∧
    Completes (.addI x) s (OnlyIndex (BitVec.ofNat 16 ((s.I.toNat + s.V[x].toNat) % 65536)) s)

/-- R192: LD B, Vx stores the decimal digits at `I`, `I + 1`, `I + 2`; a write into the font or above memory raises
MemoryAccessFault at the lowest failing address and stores nothing. -/
def Obligations.StoreDecimal : Prop :=
  ∀ (s : State) (x : Reg), HasEncoding (.ldB x) (0xF#4 ++ fieldBits x ++ 0x33#8) ∧
    (80 ≤ s.I.toNat → s.I.toNat + 2 ≤ 4095 → Completes (.ldB x) s fun t =>
      OnlyBytes s.I.toNat 3 (fun k => BitVec.ofNat 8 (s.V[x].toNat / 10 ^ (2 - k) % 10)) s t) ∧
    (s.I.toNat ≤ 79 → Raises (.ldB x) s .memoryAccess (.access s.I.toNat .fontWrite)) ∧
    (4095 < s.I.toNat + 2 → Raises (.ldB x) s .memoryAccess (.access (max s.I.toNat 4096) .write))

/-- R193: LD [I], Vx stores V0 to Vx at `I` to `I + x` and leaves `I`; faults as LD B. -/
def Obligations.StoreRegisters : Prop :=
  ∀ (s : State) (x : Reg), HasEncoding (.storeRegs x) (0xF#4 ++ fieldBits x ++ 0x55#8) ∧
    (80 ≤ s.I.toNat → s.I.toNat + x.val ≤ 4095 → Completes (.storeRegs x) s fun t =>
      OnlyBytes s.I.toNat (x.val + 1) (fun k => s.V[Fin.ofNat 16 k]) s t) ∧
    (s.I.toNat ≤ 79 → Raises (.storeRegs x) s .memoryAccess (.access s.I.toNat .fontWrite)) ∧
    (4095 < s.I.toNat + x.val → Raises (.storeRegs x) s .memoryAccess (.access (max s.I.toNat 4096) .write))

/-- R194: LD Vx, [I] loads V0 to Vx from `I` to `I + x`, the font region included, and leaves `I` and the other
registers; an address above memory raises MemoryAccessFault and no register changes. -/
def Obligations.LoadRegisters : Prop :=
  ∀ (s : State) (x : Reg), HasEncoding (.loadRegs x) (0xF#4 ++ fieldBits x ++ 0x65#8) ∧
    (s.I.toNat + x.val ≤ 4095 → Completes (.loadRegs x) s fun t =>
      (∀ q : Reg, q.val ≤ x.val → t.V[q] = s.readByte (s.I.toNat + q.val)) ∧
      (∀ q : Reg, x.val < q.val → t.V[q] = s.V[q]) ∧ t.pc = s.pc + 2 ∧
      t = { s with V := t.V, pc := t.pc } ∧ SameBytes s t) ∧
    (4095 < s.I.toNat + x.val → Raises (.loadRegs x) s .memoryAccess (.access (max s.I.toNat 4096) .read))

/-- From R193 and R194: registers stored and loaded again are the registers stored, whatever the registers held between. -/
def Obligations.StoreThenLoadRegisters : Prop :=
  ∀ (s : State) (x : Reg) (V : Vector Byte 16), 80 ≤ s.I.toNat → s.I.toNat + x.val ≤ 4095 →
    ∃ t u, exec (.storeRegs x) s = .next t ∧ exec (.loadRegs x) { t with V := V } = .next u ∧
      ∀ q : Reg, u.V[q] = if q.val ≤ x.val then s.V[q] else V[q]

/-- From R64 and R268, for LD [I], Vx: bytes a store writes are the bytes fetched from there, with nothing between: the word at any `pc` inside
the stored bytes is made of the registers stored. -/
def Obligations.StoresAreFetched : Prop :=
  ∀ (s t : State) (x : Reg) (k : Nat) (p : Word), exec (.storeRegs x) s = .next t → s.fault = none → t.fault = none →
    k + 1 ≤ x.val → p.toNat = s.I.toNat + k →
    wordAtPc { t with pc := p } =
      BitVec.ofNat 16 (s.V[Fin.ofNat 16 k].toNat * 256 + s.V[Fin.ofNat 16 (k + 1)].toNat)

/-! ## Timers and keys -/

/-- R210, R211, R212: LD Vx, DT; LD DT, Vx; LD ST, Vx, before the step's tick. -/
def Obligations.TimerTransfers : Prop :=
  ∀ (s : State) (x : Reg),
    HasEncoding (.ldVxDt x) (0xF#4 ++ fieldBits x ++ 0x07#8) ∧ Completes (.ldVxDt x) s (OnlyReg x s.DT s) ∧
    HasEncoding (.ldDtVx x) (0xF#4 ++ fieldBits x ++ 0x15#8) ∧
    (Completes (.ldDtVx x) s fun t => t.DT = s.V[x] ∧ t.pc = s.pc + 2 ∧ t = { s with DT := t.DT, pc := t.pc } ∧
      SameBytes s t) ∧
    HasEncoding (.ldStVx x) (0xF#4 ++ fieldBits x ++ 0x18#8) ∧
    (Completes (.ldStVx x) s fun t => t.ST = s.V[x] ∧ t.pc = s.pc + 2 ∧ t = { s with ST := t.ST, pc := t.pc } ∧
      SameBytes s t)

/-- R213, R214, R217: SKP and SKNP by the key `V[x]`; a key index above 15 raises KeyIndexFault and nothing changes. -/
def Obligations.KeySkips : Prop :=
  ∀ (s : State) (x : Reg),
    HasEncoding (.skp x) (0xE#4 ++ fieldBits x ++ 0x9E#8) ∧ HasEncoding (.sknp x) (0xE#4 ++ fieldBits x ++ 0xA1#8) ∧
    (∀ k : Fin 16, s.V[x].toNat = k.val →
      Completes (.skp x) s (OnlyPc (if s.keys[k] then s.pc + 4 else s.pc + 2) s) ∧
      Completes (.sknp x) s (OnlyPc (if s.keys[k] then s.pc + 2 else s.pc + 4) s)) ∧
    (15 < s.V[x].toNat →
      Raises (.skp x) s .keyIndex (.key s.V[x]) ∧ Raises (.sknp x) s .keyIndex (.key s.V[x]))

/-- R215: LD Vx, K: with a key pressed, the lowest pressed index goes to `V[x]` and the wait ends; with none, `pc` stays
and `awaiting_key` is 1. -/
def Obligations.KeyWait : Prop :=
  ∀ (s : State) (x : Reg), HasEncoding (.ldVxK x) (0xF#4 ++ fieldBits x ++ 0x0A#8) ∧
    (∀ k : Fin 16, s.keys[k] = true → (∀ j : Fin 16, j < k → s.keys[j] = false) → Completes (.ldVxK x) s fun t =>
      t.V[x] = BitVec.ofNat 8 k.val ∧ (∀ q : Reg, q ≠ x → t.V[q] = s.V[q]) ∧ t.awaitingKey = false ∧
      t.pc = s.pc + 2 ∧ t = { s with V := t.V, awaitingKey := t.awaitingKey, pc := t.pc } ∧ SameBytes s t) ∧
    ((∀ k : Fin 16, s.keys[k] = false) → Completes (.ldVxK x) s fun t =>
      t = { s with awaitingKey := true } ∧ SameBytes s t)

/-- From R215, R216 and R270: a core at a LD Vx, K waits as long as no key is pressed: however many steps run, under any ticks and
random bytes, each is Ok, `pc` and the registers stay and the timers never go up; the first step with a key pressed
completes the instruction. -/
def Obligations.KeyWaitParks : Prop :=
  ∀ (s : State) (x : Reg) (inputs : List StepInputs), s.fault = none → 512 ≤ s.pc.toNat →
    s.pc.toNat + 1 ≤ 511 + s.progLen.val → decode s.cfg.bnnnMode (wordAtPc s) = .ok (.ldVxK x) →
    (∀ a ∈ inputs, ∀ k : Fin 16, a.keys[k] = false) →
    ∃ t, runWith inputs s = .next t ∧ t.fault = none ∧ t.pc = s.pc ∧ t.V = s.V ∧ t.mem = s.mem ∧ t.fb = s.fb ∧
      t.DT.toNat ≤ s.DT.toNat ∧ t.ST.toNat ≤ s.ST.toNat ∧ (inputs ≠ [] → t.awaitingKey = true) ∧
      ∀ (a : StepInputs) (k : Fin 16), a.keys[k] = true → (∀ j : Fin 16, j < k → a.keys[j] = false) →
        ∃ u, stepWith a t = .next u ∧ u.V[x] = BitVec.ofNat 8 k.val ∧ u.pc = s.pc + 2 ∧ u.awaitingKey = false

/-! ## Host -/

/-- R262, R245: `load` of at most 3584 bytes, before any step and any other load, copies the image to 512 and sets
`prog_len` and nothing else (`loadOpen` is the model's, log entry 7); a longer image is ProgramTooLarge. -/
def Obligations.LoadCopiesImage : Prop :=
  ∀ (s : State) (bytes : List Byte), s.fault = none → s.loadOpen = true →
    (bytes.length ≤ 3584 → ∃ t, s.load bytes = .next t ∧ t.progLen.val = bytes.length ∧
      (∀ k, ∀ h : k < bytes.length, t.readByte (512 + k) = bytes[k]) ∧
      (∀ a, a < 512 ∨ 512 + bytes.length ≤ a → t.readByte a = s.readByte a) ∧
      t = { s with mem := t.mem, progLen := t.progLen, loadOpen := false }) ∧
    (3584 < bytes.length →
      s.load bytes = .fault .programTooLarge ∧ HostAction.apply s (.load bytes) = s)

/-- R264: a model refuses a load after a step or a second load, and a refused load changes nothing; a step of a machine
with no image (`prog_len` 0, as before any load) raises OutOfBoundsFault. -/
def Obligations.LoadOnlyOnce : Prop :=
  (∀ (s t : State) (bytes : List Byte), step s = .next t → t.load bytes = .refused .loadNotAllowed) ∧
  (∀ (s t : State) (first bytes : List Byte), s.load first = .next t →
    t.load bytes = .refused .loadNotAllowed ∧ HostAction.apply t (.load bytes) = t) ∧
  (∀ c : Config, (State.create c).progLen.val = 0) ∧
  (∀ s : State, s.fault = none → s.progLen.val = 0 →
    step s = .next { s with fault := some ⟨.outOfBounds, s.pc, none, .empty⟩ })

/-- R178: `consume_frame` returns the pixels and the dirty flag as they stand, then clears the flag and changes no pixel
and nothing else; only CLS and DRW set the flag. -/
def Obligations.ConsumeFrame : Prop :=
  (∀ s : State, ∃ t, s.consumeFrame = ((s.fb, s.dirty), t) ∧ t.dirty = false ∧
    (∀ px py, pixelAt t px py = pixelAt s px py) ∧ t = { s with dirty := t.dirty } ∧ SameBytes s t) ∧
  (∀ (i : Instr) (s t : State), exec i s = .next t → s.dirty = false → t.dirty = true →
    i = .cls ∨ ∃ x y n, i = .drw x y n)

/-! ## The whole machine -/

/-- The invariant holds of a machine just created, whatever the parameters. -/
def Obligations.InvAtCreation : Prop :=
  (∀ c : Config, (State.create c).Inv) ∧ State.reset.Inv

/-- Every step keeps the invariant, from every state that meets it. -/
def Obligations.InvKeptByStep : Prop :=
  ∀ s t : State, s.Inv → step s = .next t → t.Inv

/-- Every host action between steps keeps the invariant. -/
def Obligations.InvKeptByHost : Prop :=
  ∀ (s : State) (a : HostAction), s.Inv → (a.apply s).Inv

/-- Every reachable state meets the invariant. -/
def Obligations.ReachableStatesMeetInv : Prop :=
  ∀ s : State, Reachable s → s.Inv

/-- R52, R57, R261: the 80 font bytes never change: not by a step, from any state, and in every reachable state they are
the parameter's. -/
def Obligations.FontNeverChanges : Prop :=
  (∀ (s t : State) (a : Nat), a < 80 → step s = .next t → t.readByte a = s.readByte a) ∧
  (∀ s : State, Reachable s → ∀ a, ∀ h : a < 80, s.readByte a = s.cfg.font[a])

/-- From R21: the instructions that write VF as a side effect are exactly the six; every other changes VF only when it names
it: as `x`, or LD Vx, [I] with `x = F`. -/
def Obligations.OnlySixWriteVFAsSideEffect : Prop :=
  ∀ (i : Instr) (s t : State), exec i s = .next t → t.V[VF] ≠ s.V[VF] →
    (∃ x y, i ∈ [Instr.addReg x y, .subReg x y, .shr x y, .subnReg x y, .shl x y]) ∨ (∃ x y n, i = .drw x y n) ∨
    (∃ kk y, i ∈ [Instr.ldByte VF kk, .addByte VF kk, .ldReg VF y, .orReg VF y, .andReg VF y, .xorReg VF y, .rnd VF kk,
      .ldVxDt VF, .ldVxK VF, .loadRegs VF])

/-- From R22, R25, R26, R27, R29, R31, R33 and R50 (the writers of memory): which instructions change which
element. -/
def Obligations.OnlyTheNamedInstructionsWrite : Prop :=
  ∀ (i : Instr) (s t : State), exec i s = .next t →
    (t.I ≠ s.I → (∃ a, i = .ldI a) ∨ (∃ x, i = .addI x) ∨ ∃ x, i = .ldF x) ∧
    (t.sp ≠ s.sp ∨ t.stack ≠ s.stack → (∃ a, i = .call a) ∨ i = .ret) ∧
    (t.DT ≠ s.DT → ∃ x, i = .ldDtVx x) ∧ (t.ST ≠ s.ST → ∃ x, i = .ldStVx x) ∧
    (t.fb ≠ s.fb ∨ t.dirty ≠ s.dirty → i = .cls ∨ ∃ x y n, i = .drw x y n) ∧
    (t.awaitingKey ≠ s.awaitingKey → ∃ x, i = .ldVxK x) ∧
    (t.mem ≠ s.mem → (∃ x, i = .ldB x) ∨ ∃ x, i = .storeRegs x) ∧
    t.progLen = s.progLen ∧ t.cfg = s.cfg ∧ t.keys = s.keys ∧ t.tick = s.tick ∧ t.rnd = s.rnd

/-- R30 (the half about steps): no step clears the dirty flag. -/
def Obligations.StepsNeverClearDirty : Prop :=
  ∀ s t : State, step s = .next t → s.dirty = true → t.dirty = true

/-- From R28, R152, R27 and R25: the keypad is read by SKP, SKNP and LD Vx, K only, the random byte by RND only, the sound
timer and the `tick` by no instruction, the stack by CALL and RET only: with another value there, any other instruction
does the same. -/
def Obligations.InputsReadOnlyWhereNamed : Prop :=
  ∀ (i : Instr) (s t : State), exec i s = .next t →
    (∀ keys, (∀ x, i ∉ [Instr.skp x, .sknp x, .ldVxK x]) → exec i { s with keys := keys } = .next { t with keys := keys }) ∧
    (∀ r, (∀ x kk, i ≠ .rnd x kk) → exec i { s with rnd := r } = .next { t with rnd := r }) ∧
    (∀ b, (∀ x, i ≠ .ldStVx x) → exec i { s with ST := b } = .next { t with ST := b }) ∧
    (∀ b, exec i { s with tick := b } = .next { t with tick := b }) ∧
    (∀ st, (∀ a, i ≠ .call a) → i ≠ .ret → exec i { s with stack := st } = .next { t with stack := st })

/-- From R4 and R272: `clock_hz` has no effect on a step. -/
def Obligations.ClockRateHasNoEffect : Prop :=
  ∀ (s t : State) (hz : Nat), step s = .next t →
    step { s with cfg := { s.cfg with clockHz := hz } } = .next { t with cfg := { t.cfg with clockHz := hz } }
end

