-- ==== Sys2Proof/Laws/Codec.lean ====
section
/-! SUPPORT. The fields of an encoded word, format by format, and the word of its fields
(spec 30_encoding.md R71, R72). -/

namespace Sys2Proof

@[simp] theorem toFin_regBits (x : Reg) : (regBits x).toFin = x := rfl

/-! ## Words as numbers -/

theorem toNat_append_lt {n m : Nat} (a : BitVec n) (b : BitVec m) : (a ++ b).toNat = a.toNat * 2 ^ m + b.toNat := by
  rw [BitVec.toNat_append, ← Nat.shiftLeft_add_eq_or_of_lt b.isLt, Nat.shiftLeft_eq]

/-- Four nibbles as a number. -/
theorem toNat_nibbles (a b c d : Nibble) :
    BitVec.toNat (w := 16) (a ++ b ++ c ++ d) = ((a.toNat * 16 + b.toNat) * 16 + c.toNat) * 16 + d.toNat := by
  show (a ++ b ++ c ++ d).toNat = _
  simp only [toNat_append_lt, Nat.reducePow]

/-- Two nibbles and a byte as a number. -/
theorem toNat_nibbles_byte (a b : Nibble) (k : Byte) :
    BitVec.toNat (w := 16) (a ++ b ++ k) = (a.toNat * 16 + b.toNat) * 256 + k.toNat := by
  show (a ++ b ++ k).toNat = _
  simp only [toNat_append_lt, Nat.reducePow]

/-- A nibble and an address as a number. -/
theorem toNat_nibble_addr (a : Nibble) (d : Addr12) :
    BitVec.toNat (w := 16) (a ++ d) = a.toNat * 4096 + d.toNat := by
  show (a ++ d).toNat = _
  simp only [toNat_append_lt, Nat.reducePow]

@[simp] theorem toNat_regBits (x : Reg) : (regBits x).toNat = x.val := rfl

theorem toNat_opField (w : Word) : (opField w).toNat = w.toNat / 4096 := by
  have := w.isLt
  rw [opField, BitVec.extractLsb'_toNat, Nat.shiftRight_eq_div_pow]
  omega

theorem val_xField (w : Word) : (xField w).val = w.toNat / 256 % 16 := by
  show (w.extractLsb' 8 4).toNat = _
  rw [BitVec.extractLsb'_toNat, Nat.shiftRight_eq_div_pow]

theorem val_yField (w : Word) : (yField w).val = w.toNat / 16 % 16 := by
  show (w.extractLsb' 4 4).toNat = _
  rw [BitVec.extractLsb'_toNat, Nat.shiftRight_eq_div_pow]

theorem toNat_nField (w : Word) : (nField w).toNat = w.toNat % 16 := by
  rw [nField, BitVec.extractLsb'_toNat, Nat.shiftRight_zero]

theorem toNat_kkField (w : Word) : (kkField w).toNat = w.toNat % 256 := by
  rw [kkField, BitVec.extractLsb'_toNat, Nat.shiftRight_zero]

theorem toNat_nnnField (w : Word) : (nnnField w).toNat = w.toNat % 4096 := by
  rw [nnnField, BitVec.extractLsb'_toNat, Nat.shiftRight_zero]

/-! ## The encodings as numbers -/

theorem toNat_encodeXY (op n : Nibble) (x y : Reg) :
    (encodeXY op x y n).toNat = ((op.toNat * 16 + x.val) * 16 + y.val) * 16 + n.toNat := toNat_nibbles _ _ _ _

theorem toNat_encodeXK (op : Nibble) (x : Reg) (kk : Byte) :
    (encodeXK op x kk).toNat = (op.toNat * 16 + x.val) * 256 + kk.toNat := toNat_nibbles_byte _ _ _

theorem toNat_encodeX (op : Nibble) (x : Reg) (kk : Byte) :
    (encodeX op x kk).toNat = (op.toNat * 16 + x.val) * 256 + kk.toNat := toNat_nibbles_byte _ _ _

theorem toNat_encodeA (op : Nibble) (a : Addr12) : (encodeA op a).toNat = op.toNat * 4096 + a.toNat :=
  toNat_nibble_addr _ _

/-! ## The fields of each format -/

@[simp] theorem opField_encodeXY (op n : Nibble) (x y : Reg) : opField (encodeXY op x y n) = op := by
  have := op.isLt
  have := n.isLt
  have := x.isLt
  have := y.isLt
  apply BitVec.eq_of_toNat_eq
  rw [toNat_opField, toNat_encodeXY]
  omega

@[simp] theorem xField_encodeXY (op n : Nibble) (x y : Reg) : xField (encodeXY op x y n) = x := by
  have := op.isLt
  have := n.isLt
  have := x.isLt
  have := y.isLt
  apply Fin.ext
  rw [val_xField, toNat_encodeXY]
  omega

@[simp] theorem yField_encodeXY (op n : Nibble) (x y : Reg) : yField (encodeXY op x y n) = y := by
  have := op.isLt
  have := n.isLt
  have := x.isLt
  have := y.isLt
  apply Fin.ext
  rw [val_yField, toNat_encodeXY]
  omega

@[simp] theorem nField_encodeXY (op n : Nibble) (x y : Reg) : nField (encodeXY op x y n) = n := by
  have := op.isLt
  have := n.isLt
  have := x.isLt
  have := y.isLt
  apply BitVec.eq_of_toNat_eq
  rw [toNat_nField, toNat_encodeXY]
  omega

@[simp] theorem opField_encodeXK (op : Nibble) (x : Reg) (kk : Byte) : opField (encodeXK op x kk) = op := by
  have := op.isLt
  have := x.isLt
  have := kk.isLt
  apply BitVec.eq_of_toNat_eq
  rw [toNat_opField, toNat_encodeXK]
  omega

@[simp] theorem xField_encodeXK (op : Nibble) (x : Reg) (kk : Byte) : xField (encodeXK op x kk) = x := by
  have := op.isLt
  have := x.isLt
  have := kk.isLt
  apply Fin.ext
  rw [val_xField, toNat_encodeXK]
  omega

@[simp] theorem kkField_encodeXK (op : Nibble) (x : Reg) (kk : Byte) : kkField (encodeXK op x kk) = kk := by
  have := op.isLt
  have := x.isLt
  have := kk.isLt
  apply BitVec.eq_of_toNat_eq
  rw [toNat_kkField, toNat_encodeXK]
  omega

@[simp] theorem opField_encodeX (op : Nibble) (x : Reg) (kk : Byte) : opField (encodeX op x kk) = op := by
  have := op.isLt
  have := x.isLt
  have := kk.isLt
  apply BitVec.eq_of_toNat_eq
  rw [toNat_opField, toNat_encodeX]
  omega

@[simp] theorem xField_encodeX (op : Nibble) (x : Reg) (kk : Byte) : xField (encodeX op x kk) = x := by
  have := op.isLt
  have := x.isLt
  have := kk.isLt
  apply Fin.ext
  rw [val_xField, toNat_encodeX]
  omega

@[simp] theorem kkField_encodeX (op : Nibble) (x : Reg) (kk : Byte) : kkField (encodeX op x kk) = kk := by
  have := op.isLt
  have := x.isLt
  have := kk.isLt
  apply BitVec.eq_of_toNat_eq
  rw [toNat_kkField, toNat_encodeX]
  omega

@[simp] theorem opField_encodeA (op : Nibble) (a : Addr12) : opField (encodeA op a) = op := by
  have := op.isLt
  have := a.isLt
  apply BitVec.eq_of_toNat_eq
  rw [toNat_opField, toNat_encodeA]
  omega

@[simp] theorem nnnField_encodeA (op : Nibble) (a : Addr12) : nnnField (encodeA op a) = a := by
  have := op.isLt
  have := a.isLt
  apply BitVec.eq_of_toNat_eq
  rw [toNat_nnnField, toNat_encodeA]
  omega

/-! ## A word from its fields -/

theorem encodeXY_fields (w : Word) : encodeXY (opField w) (xField w) (yField w) (nField w) = w := by
  have := w.isLt
  apply BitVec.eq_of_toNat_eq
  rw [toNat_encodeXY, toNat_opField, val_xField, val_yField, toNat_nField]
  omega

theorem encodeXK_fields (w : Word) : encodeXK (opField w) (xField w) (kkField w) = w := by
  have := w.isLt
  apply BitVec.eq_of_toNat_eq
  rw [toNat_encodeXK, toNat_opField, val_xField, toNat_kkField]
  omega

theorem encodeX_fields (w : Word) : encodeX (opField w) (xField w) (kkField w) = w := encodeXK_fields w

theorem encodeA_fields (w : Word) : encodeA (opField w) (nnnField w) = w := by
  have := w.isLt
  apply BitVec.eq_of_toNat_eq
  rw [toNat_encodeA, toNat_opField, toNat_nnnField]
  omega

/-! ## The masks of the opcode map (R75) -/

theorem and_maskA (w : Word) : w &&& 0xF000#16 = encodeA (opField w) 0 := by
  apply BitVec.eq_of_getLsbD_eq
  intro i hi
  show _ = BitVec.getLsbD (opField w ++ (0 : Addr12)) i
  rw [BitVec.getLsbD_append, opField]
  interval_cases i <;> simp

theorem and_maskXY (w : Word) : w &&& 0xF00F#16 = encodeXY (opField w) 0 0 (nField w) := by
  apply BitVec.eq_of_getLsbD_eq
  intro i hi
  show _ = BitVec.getLsbD (opField w ++ regBits 0 ++ regBits 0 ++ nField w) i
  rw [BitVec.getLsbD_append, BitVec.getLsbD_append, BitVec.getLsbD_append, opField, nField]
  interval_cases i <;> simp [regBits]

theorem and_maskX (w : Word) : w &&& 0xF0FF#16 = encodeX (opField w) 0 (kkField w) := by
  apply BitVec.eq_of_getLsbD_eq
  intro i hi
  show _ = BitVec.getLsbD (opField w ++ regBits 0 ++ kkField w) i
  rw [BitVec.getLsbD_append, BitVec.getLsbD_append, opField, kkField]
  interval_cases i <;> simp [regBits]

/-! ## Bytes of a word -/

/-- The two bytes of a word, high byte first, compose to it (R54). -/
@[simp] theorem composeWord_bytes (w : Word) : composeWord (highByte w) (lowByte w) = w := by
  have := w.isLt
  apply BitVec.eq_of_toNat_eq
  show (highByte w ++ lowByte w).toNat = _
  rw [toNat_append_lt, highByte, lowByte, BitVec.extractLsb'_toNat, BitVec.extractLsb'_toNat, Nat.shiftRight_zero,
    Nat.shiftRight_eq_div_pow]
  omega

/-- Big-endian composition as a number (R103). -/
theorem composeWord_eq (hi lo : Byte) : composeWord hi lo = BitVec.ofNat 16 (hi.toNat * 256 + lo.toNat) := by
  apply BitVec.eq_of_toNat_eq
  have h1 := hi.isLt
  have h2 := lo.isLt
  show (hi ++ lo).toNat = _
  rw [toNat_append_lt, BitVec.toNat_ofNat]
  omega

end Sys2Proof
end

