-- ==== Sys2Proof/Laws/State.lean ====
section
/-! SUPPORT. What each named update of the state does to each field: one lemma per field per update, true by `rfl`, so
that no later proof unfolds a record update. -/

namespace Sys2Proof.Machine.State

/-! ## writeV -/

@[simp] theorem writeV_V (s : State) (r : Reg) (b : Byte) : (s.writeV r b).V = s.V.set r b := rfl
@[simp] theorem writeV_I (s : State) (r : Reg) (b : Byte) : (s.writeV r b).I = s.I := rfl
@[simp] theorem writeV_pc (s : State) (r : Reg) (b : Byte) : (s.writeV r b).pc = s.pc := rfl
@[simp] theorem writeV_sp (s : State) (r : Reg) (b : Byte) : (s.writeV r b).sp = s.sp := rfl
@[simp] theorem writeV_stack (s : State) (r : Reg) (b : Byte) : (s.writeV r b).stack = s.stack := rfl
@[simp] theorem writeV_DT (s : State) (r : Reg) (b : Byte) : (s.writeV r b).DT = s.DT := rfl
@[simp] theorem writeV_ST (s : State) (r : Reg) (b : Byte) : (s.writeV r b).ST = s.ST := rfl
@[simp] theorem writeV_fb (s : State) (r : Reg) (b : Byte) : (s.writeV r b).fb = s.fb := rfl
@[simp] theorem writeV_dirty (s : State) (r : Reg) (b : Byte) : (s.writeV r b).dirty = s.dirty := rfl
@[simp] theorem writeV_awaitingKey (s : State) (r : Reg) (b : Byte) : (s.writeV r b).awaitingKey = s.awaitingKey := rfl
@[simp] theorem writeV_fault (s : State) (r : Reg) (b : Byte) : (s.writeV r b).fault = s.fault := rfl
@[simp] theorem writeV_progLen (s : State) (r : Reg) (b : Byte) : (s.writeV r b).progLen = s.progLen := rfl
@[simp] theorem writeV_mem (s : State) (r : Reg) (b : Byte) : (s.writeV r b).mem = s.mem := rfl
@[simp] theorem writeV_keys (s : State) (r : Reg) (b : Byte) : (s.writeV r b).keys = s.keys := rfl
@[simp] theorem writeV_tick (s : State) (r : Reg) (b : Byte) : (s.writeV r b).tick = s.tick := rfl
@[simp] theorem writeV_rnd (s : State) (r : Reg) (b : Byte) : (s.writeV r b).rnd = s.rnd := rfl
@[simp] theorem writeV_cfg (s : State) (r : Reg) (b : Byte) : (s.writeV r b).cfg = s.cfg := rfl
@[simp] theorem writeV_draws (s : State) (r : Reg) (b : Byte) : (s.writeV r b).draws = s.draws := rfl
@[simp] theorem writeV_loadOpen (s : State) (r : Reg) (b : Byte) : (s.writeV r b).loadOpen = s.loadOpen := rfl

/-! ## writeI -/

@[simp] theorem writeI_V (s : State) (w : Word) : (s.writeI w).V = s.V := rfl
@[simp] theorem writeI_I (s : State) (w : Word) : (s.writeI w).I = w := rfl
@[simp] theorem writeI_pc (s : State) (w : Word) : (s.writeI w).pc = s.pc := rfl
@[simp] theorem writeI_sp (s : State) (w : Word) : (s.writeI w).sp = s.sp := rfl
@[simp] theorem writeI_stack (s : State) (w : Word) : (s.writeI w).stack = s.stack := rfl
@[simp] theorem writeI_DT (s : State) (w : Word) : (s.writeI w).DT = s.DT := rfl
@[simp] theorem writeI_ST (s : State) (w : Word) : (s.writeI w).ST = s.ST := rfl
@[simp] theorem writeI_fb (s : State) (w : Word) : (s.writeI w).fb = s.fb := rfl
@[simp] theorem writeI_dirty (s : State) (w : Word) : (s.writeI w).dirty = s.dirty := rfl
@[simp] theorem writeI_awaitingKey (s : State) (w : Word) : (s.writeI w).awaitingKey = s.awaitingKey := rfl
@[simp] theorem writeI_fault (s : State) (w : Word) : (s.writeI w).fault = s.fault := rfl
@[simp] theorem writeI_progLen (s : State) (w : Word) : (s.writeI w).progLen = s.progLen := rfl
@[simp] theorem writeI_mem (s : State) (w : Word) : (s.writeI w).mem = s.mem := rfl
@[simp] theorem writeI_keys (s : State) (w : Word) : (s.writeI w).keys = s.keys := rfl
@[simp] theorem writeI_tick (s : State) (w : Word) : (s.writeI w).tick = s.tick := rfl
@[simp] theorem writeI_rnd (s : State) (w : Word) : (s.writeI w).rnd = s.rnd := rfl
@[simp] theorem writeI_cfg (s : State) (w : Word) : (s.writeI w).cfg = s.cfg := rfl
@[simp] theorem writeI_draws (s : State) (w : Word) : (s.writeI w).draws = s.draws := rfl
@[simp] theorem writeI_loadOpen (s : State) (w : Word) : (s.writeI w).loadOpen = s.loadOpen := rfl

/-! ## setPc -/

@[simp] theorem setPc_V (s : State) (w : Word) : (s.setPc w).V = s.V := rfl
@[simp] theorem setPc_I (s : State) (w : Word) : (s.setPc w).I = s.I := rfl
@[simp] theorem setPc_pc (s : State) (w : Word) : (s.setPc w).pc = w := rfl
@[simp] theorem setPc_sp (s : State) (w : Word) : (s.setPc w).sp = s.sp := rfl
@[simp] theorem setPc_stack (s : State) (w : Word) : (s.setPc w).stack = s.stack := rfl
@[simp] theorem setPc_DT (s : State) (w : Word) : (s.setPc w).DT = s.DT := rfl
@[simp] theorem setPc_ST (s : State) (w : Word) : (s.setPc w).ST = s.ST := rfl
@[simp] theorem setPc_fb (s : State) (w : Word) : (s.setPc w).fb = s.fb := rfl
@[simp] theorem setPc_dirty (s : State) (w : Word) : (s.setPc w).dirty = s.dirty := rfl
@[simp] theorem setPc_awaitingKey (s : State) (w : Word) : (s.setPc w).awaitingKey = s.awaitingKey := rfl
@[simp] theorem setPc_fault (s : State) (w : Word) : (s.setPc w).fault = s.fault := rfl
@[simp] theorem setPc_progLen (s : State) (w : Word) : (s.setPc w).progLen = s.progLen := rfl
@[simp] theorem setPc_mem (s : State) (w : Word) : (s.setPc w).mem = s.mem := rfl
@[simp] theorem setPc_keys (s : State) (w : Word) : (s.setPc w).keys = s.keys := rfl
@[simp] theorem setPc_tick (s : State) (w : Word) : (s.setPc w).tick = s.tick := rfl
@[simp] theorem setPc_rnd (s : State) (w : Word) : (s.setPc w).rnd = s.rnd := rfl
@[simp] theorem setPc_cfg (s : State) (w : Word) : (s.setPc w).cfg = s.cfg := rfl
@[simp] theorem setPc_draws (s : State) (w : Word) : (s.setPc w).draws = s.draws := rfl
@[simp] theorem setPc_loadOpen (s : State) (w : Word) : (s.setPc w).loadOpen = s.loadOpen := rfl

/-! ## advance -/

@[simp] theorem advance_V (s : State) : (s.advance).V = s.V := rfl
@[simp] theorem advance_I (s : State) : (s.advance).I = s.I := rfl
@[simp] theorem advance_pc (s : State) : (s.advance).pc = s.pc + 2 := rfl
@[simp] theorem advance_sp (s : State) : (s.advance).sp = s.sp := rfl
@[simp] theorem advance_stack (s : State) : (s.advance).stack = s.stack := rfl
@[simp] theorem advance_DT (s : State) : (s.advance).DT = s.DT := rfl
@[simp] theorem advance_ST (s : State) : (s.advance).ST = s.ST := rfl
@[simp] theorem advance_fb (s : State) : (s.advance).fb = s.fb := rfl
@[simp] theorem advance_dirty (s : State) : (s.advance).dirty = s.dirty := rfl
@[simp] theorem advance_awaitingKey (s : State) : (s.advance).awaitingKey = s.awaitingKey := rfl
@[simp] theorem advance_fault (s : State) : (s.advance).fault = s.fault := rfl
@[simp] theorem advance_progLen (s : State) : (s.advance).progLen = s.progLen := rfl
@[simp] theorem advance_mem (s : State) : (s.advance).mem = s.mem := rfl
@[simp] theorem advance_keys (s : State) : (s.advance).keys = s.keys := rfl
@[simp] theorem advance_tick (s : State) : (s.advance).tick = s.tick := rfl
@[simp] theorem advance_rnd (s : State) : (s.advance).rnd = s.rnd := rfl
@[simp] theorem advance_cfg (s : State) : (s.advance).cfg = s.cfg := rfl
@[simp] theorem advance_draws (s : State) : (s.advance).draws = s.draws := rfl
@[simp] theorem advance_loadOpen (s : State) : (s.advance).loadOpen = s.loadOpen := rfl

/-! ## skipIf -/

@[simp] theorem skipIf_V (s : State) (c : Bool) : (s.skipIf c).V = s.V := rfl
@[simp] theorem skipIf_I (s : State) (c : Bool) : (s.skipIf c).I = s.I := rfl
@[simp] theorem skipIf_pc (s : State) (c : Bool) : (s.skipIf c).pc = if c then s.pc + 4 else s.pc + 2 := rfl
@[simp] theorem skipIf_sp (s : State) (c : Bool) : (s.skipIf c).sp = s.sp := rfl
@[simp] theorem skipIf_stack (s : State) (c : Bool) : (s.skipIf c).stack = s.stack := rfl
@[simp] theorem skipIf_DT (s : State) (c : Bool) : (s.skipIf c).DT = s.DT := rfl
@[simp] theorem skipIf_ST (s : State) (c : Bool) : (s.skipIf c).ST = s.ST := rfl
@[simp] theorem skipIf_fb (s : State) (c : Bool) : (s.skipIf c).fb = s.fb := rfl
@[simp] theorem skipIf_dirty (s : State) (c : Bool) : (s.skipIf c).dirty = s.dirty := rfl
@[simp] theorem skipIf_awaitingKey (s : State) (c : Bool) : (s.skipIf c).awaitingKey = s.awaitingKey := rfl
@[simp] theorem skipIf_fault (s : State) (c : Bool) : (s.skipIf c).fault = s.fault := rfl
@[simp] theorem skipIf_progLen (s : State) (c : Bool) : (s.skipIf c).progLen = s.progLen := rfl
@[simp] theorem skipIf_mem (s : State) (c : Bool) : (s.skipIf c).mem = s.mem := rfl
@[simp] theorem skipIf_keys (s : State) (c : Bool) : (s.skipIf c).keys = s.keys := rfl
@[simp] theorem skipIf_tick (s : State) (c : Bool) : (s.skipIf c).tick = s.tick := rfl
@[simp] theorem skipIf_rnd (s : State) (c : Bool) : (s.skipIf c).rnd = s.rnd := rfl
@[simp] theorem skipIf_cfg (s : State) (c : Bool) : (s.skipIf c).cfg = s.cfg := rfl
@[simp] theorem skipIf_draws (s : State) (c : Bool) : (s.skipIf c).draws = s.draws := rfl
@[simp] theorem skipIf_loadOpen (s : State) (c : Bool) : (s.skipIf c).loadOpen = s.loadOpen := rfl

/-! ## writeDT -/

@[simp] theorem writeDT_V (s : State) (b : Byte) : (s.writeDT b).V = s.V := rfl
@[simp] theorem writeDT_I (s : State) (b : Byte) : (s.writeDT b).I = s.I := rfl
@[simp] theorem writeDT_pc (s : State) (b : Byte) : (s.writeDT b).pc = s.pc := rfl
@[simp] theorem writeDT_sp (s : State) (b : Byte) : (s.writeDT b).sp = s.sp := rfl
@[simp] theorem writeDT_stack (s : State) (b : Byte) : (s.writeDT b).stack = s.stack := rfl
@[simp] theorem writeDT_DT (s : State) (b : Byte) : (s.writeDT b).DT = b := rfl
@[simp] theorem writeDT_ST (s : State) (b : Byte) : (s.writeDT b).ST = s.ST := rfl
@[simp] theorem writeDT_fb (s : State) (b : Byte) : (s.writeDT b).fb = s.fb := rfl
@[simp] theorem writeDT_dirty (s : State) (b : Byte) : (s.writeDT b).dirty = s.dirty := rfl
@[simp] theorem writeDT_awaitingKey (s : State) (b : Byte) : (s.writeDT b).awaitingKey = s.awaitingKey := rfl
@[simp] theorem writeDT_fault (s : State) (b : Byte) : (s.writeDT b).fault = s.fault := rfl
@[simp] theorem writeDT_progLen (s : State) (b : Byte) : (s.writeDT b).progLen = s.progLen := rfl
@[simp] theorem writeDT_mem (s : State) (b : Byte) : (s.writeDT b).mem = s.mem := rfl
@[simp] theorem writeDT_keys (s : State) (b : Byte) : (s.writeDT b).keys = s.keys := rfl
@[simp] theorem writeDT_tick (s : State) (b : Byte) : (s.writeDT b).tick = s.tick := rfl
@[simp] theorem writeDT_rnd (s : State) (b : Byte) : (s.writeDT b).rnd = s.rnd := rfl
@[simp] theorem writeDT_cfg (s : State) (b : Byte) : (s.writeDT b).cfg = s.cfg := rfl
@[simp] theorem writeDT_draws (s : State) (b : Byte) : (s.writeDT b).draws = s.draws := rfl
@[simp] theorem writeDT_loadOpen (s : State) (b : Byte) : (s.writeDT b).loadOpen = s.loadOpen := rfl

/-! ## writeST -/

@[simp] theorem writeST_V (s : State) (b : Byte) : (s.writeST b).V = s.V := rfl
@[simp] theorem writeST_I (s : State) (b : Byte) : (s.writeST b).I = s.I := rfl
@[simp] theorem writeST_pc (s : State) (b : Byte) : (s.writeST b).pc = s.pc := rfl
@[simp] theorem writeST_sp (s : State) (b : Byte) : (s.writeST b).sp = s.sp := rfl
@[simp] theorem writeST_stack (s : State) (b : Byte) : (s.writeST b).stack = s.stack := rfl
@[simp] theorem writeST_DT (s : State) (b : Byte) : (s.writeST b).DT = s.DT := rfl
@[simp] theorem writeST_ST (s : State) (b : Byte) : (s.writeST b).ST = b := rfl
@[simp] theorem writeST_fb (s : State) (b : Byte) : (s.writeST b).fb = s.fb := rfl
@[simp] theorem writeST_dirty (s : State) (b : Byte) : (s.writeST b).dirty = s.dirty := rfl
@[simp] theorem writeST_awaitingKey (s : State) (b : Byte) : (s.writeST b).awaitingKey = s.awaitingKey := rfl
@[simp] theorem writeST_fault (s : State) (b : Byte) : (s.writeST b).fault = s.fault := rfl
@[simp] theorem writeST_progLen (s : State) (b : Byte) : (s.writeST b).progLen = s.progLen := rfl
@[simp] theorem writeST_mem (s : State) (b : Byte) : (s.writeST b).mem = s.mem := rfl
@[simp] theorem writeST_keys (s : State) (b : Byte) : (s.writeST b).keys = s.keys := rfl
@[simp] theorem writeST_tick (s : State) (b : Byte) : (s.writeST b).tick = s.tick := rfl
@[simp] theorem writeST_rnd (s : State) (b : Byte) : (s.writeST b).rnd = s.rnd := rfl
@[simp] theorem writeST_cfg (s : State) (b : Byte) : (s.writeST b).cfg = s.cfg := rfl
@[simp] theorem writeST_draws (s : State) (b : Byte) : (s.writeST b).draws = s.draws := rfl
@[simp] theorem writeST_loadOpen (s : State) (b : Byte) : (s.writeST b).loadOpen = s.loadOpen := rfl

/-! ## timerTick -/

@[simp] theorem timerTick_V (s : State) : (s.timerTick).V = s.V := rfl
@[simp] theorem timerTick_I (s : State) : (s.timerTick).I = s.I := rfl
@[simp] theorem timerTick_pc (s : State) : (s.timerTick).pc = s.pc := rfl
@[simp] theorem timerTick_sp (s : State) : (s.timerTick).sp = s.sp := rfl
@[simp] theorem timerTick_stack (s : State) : (s.timerTick).stack = s.stack := rfl
@[simp] theorem timerTick_DT (s : State) : (s.timerTick).DT = decrementTimer s.DT := rfl
@[simp] theorem timerTick_ST (s : State) : (s.timerTick).ST = decrementTimer s.ST := rfl
@[simp] theorem timerTick_fb (s : State) : (s.timerTick).fb = s.fb := rfl
@[simp] theorem timerTick_dirty (s : State) : (s.timerTick).dirty = s.dirty := rfl
@[simp] theorem timerTick_awaitingKey (s : State) : (s.timerTick).awaitingKey = s.awaitingKey := rfl
@[simp] theorem timerTick_fault (s : State) : (s.timerTick).fault = s.fault := rfl
@[simp] theorem timerTick_progLen (s : State) : (s.timerTick).progLen = s.progLen := rfl
@[simp] theorem timerTick_mem (s : State) : (s.timerTick).mem = s.mem := rfl
@[simp] theorem timerTick_keys (s : State) : (s.timerTick).keys = s.keys := rfl
@[simp] theorem timerTick_tick (s : State) : (s.timerTick).tick = s.tick := rfl
@[simp] theorem timerTick_rnd (s : State) : (s.timerTick).rnd = s.rnd := rfl
@[simp] theorem timerTick_cfg (s : State) : (s.timerTick).cfg = s.cfg := rfl
@[simp] theorem timerTick_draws (s : State) : (s.timerTick).draws = s.draws := rfl
@[simp] theorem timerTick_loadOpen (s : State) : (s.timerTick).loadOpen = s.loadOpen := rfl

/-! ## show -/

@[simp] theorem show_V (s : State) (f : Framebuffer) : (s.show f).V = s.V := rfl
@[simp] theorem show_I (s : State) (f : Framebuffer) : (s.show f).I = s.I := rfl
@[simp] theorem show_pc (s : State) (f : Framebuffer) : (s.show f).pc = s.pc := rfl
@[simp] theorem show_sp (s : State) (f : Framebuffer) : (s.show f).sp = s.sp := rfl
@[simp] theorem show_stack (s : State) (f : Framebuffer) : (s.show f).stack = s.stack := rfl
@[simp] theorem show_DT (s : State) (f : Framebuffer) : (s.show f).DT = s.DT := rfl
@[simp] theorem show_ST (s : State) (f : Framebuffer) : (s.show f).ST = s.ST := rfl
@[simp] theorem show_fb (s : State) (f : Framebuffer) : (s.show f).fb = f := rfl
@[simp] theorem show_dirty (s : State) (f : Framebuffer) : (s.show f).dirty = true := rfl
@[simp] theorem show_awaitingKey (s : State) (f : Framebuffer) : (s.show f).awaitingKey = s.awaitingKey := rfl
@[simp] theorem show_fault (s : State) (f : Framebuffer) : (s.show f).fault = s.fault := rfl
@[simp] theorem show_progLen (s : State) (f : Framebuffer) : (s.show f).progLen = s.progLen := rfl
@[simp] theorem show_mem (s : State) (f : Framebuffer) : (s.show f).mem = s.mem := rfl
@[simp] theorem show_keys (s : State) (f : Framebuffer) : (s.show f).keys = s.keys := rfl
@[simp] theorem show_tick (s : State) (f : Framebuffer) : (s.show f).tick = s.tick := rfl
@[simp] theorem show_rnd (s : State) (f : Framebuffer) : (s.show f).rnd = s.rnd := rfl
@[simp] theorem show_cfg (s : State) (f : Framebuffer) : (s.show f).cfg = s.cfg := rfl
@[simp] theorem show_draws (s : State) (f : Framebuffer) : (s.show f).draws = s.draws := rfl
@[simp] theorem show_loadOpen (s : State) (f : Framebuffer) : (s.show f).loadOpen = s.loadOpen := rfl

/-! ## setAwaiting -/

@[simp] theorem setAwaiting_V (s : State) (b : Bool) : (s.setAwaiting b).V = s.V := rfl
@[simp] theorem setAwaiting_I (s : State) (b : Bool) : (s.setAwaiting b).I = s.I := rfl
@[simp] theorem setAwaiting_pc (s : State) (b : Bool) : (s.setAwaiting b).pc = s.pc := rfl
@[simp] theorem setAwaiting_sp (s : State) (b : Bool) : (s.setAwaiting b).sp = s.sp := rfl
@[simp] theorem setAwaiting_stack (s : State) (b : Bool) : (s.setAwaiting b).stack = s.stack := rfl
@[simp] theorem setAwaiting_DT (s : State) (b : Bool) : (s.setAwaiting b).DT = s.DT := rfl
@[simp] theorem setAwaiting_ST (s : State) (b : Bool) : (s.setAwaiting b).ST = s.ST := rfl
@[simp] theorem setAwaiting_fb (s : State) (b : Bool) : (s.setAwaiting b).fb = s.fb := rfl
@[simp] theorem setAwaiting_dirty (s : State) (b : Bool) : (s.setAwaiting b).dirty = s.dirty := rfl
@[simp] theorem setAwaiting_awaitingKey (s : State) (b : Bool) : (s.setAwaiting b).awaitingKey = b := rfl
@[simp] theorem setAwaiting_fault (s : State) (b : Bool) : (s.setAwaiting b).fault = s.fault := rfl
@[simp] theorem setAwaiting_progLen (s : State) (b : Bool) : (s.setAwaiting b).progLen = s.progLen := rfl
@[simp] theorem setAwaiting_mem (s : State) (b : Bool) : (s.setAwaiting b).mem = s.mem := rfl
@[simp] theorem setAwaiting_keys (s : State) (b : Bool) : (s.setAwaiting b).keys = s.keys := rfl
@[simp] theorem setAwaiting_tick (s : State) (b : Bool) : (s.setAwaiting b).tick = s.tick := rfl
@[simp] theorem setAwaiting_rnd (s : State) (b : Bool) : (s.setAwaiting b).rnd = s.rnd := rfl
@[simp] theorem setAwaiting_cfg (s : State) (b : Bool) : (s.setAwaiting b).cfg = s.cfg := rfl
@[simp] theorem setAwaiting_draws (s : State) (b : Bool) : (s.setAwaiting b).draws = s.draws := rfl
@[simp] theorem setAwaiting_loadOpen (s : State) (b : Bool) : (s.setAwaiting b).loadOpen = s.loadOpen := rfl

/-! ## setFault -/

@[simp] theorem setFault_V (s : State) (r : FaultRecord) : (s.setFault r).V = s.V := rfl
@[simp] theorem setFault_I (s : State) (r : FaultRecord) : (s.setFault r).I = s.I := rfl
@[simp] theorem setFault_pc (s : State) (r : FaultRecord) : (s.setFault r).pc = s.pc := rfl
@[simp] theorem setFault_sp (s : State) (r : FaultRecord) : (s.setFault r).sp = s.sp := rfl
@[simp] theorem setFault_stack (s : State) (r : FaultRecord) : (s.setFault r).stack = s.stack := rfl
@[simp] theorem setFault_DT (s : State) (r : FaultRecord) : (s.setFault r).DT = s.DT := rfl
@[simp] theorem setFault_ST (s : State) (r : FaultRecord) : (s.setFault r).ST = s.ST := rfl
@[simp] theorem setFault_fb (s : State) (r : FaultRecord) : (s.setFault r).fb = s.fb := rfl
@[simp] theorem setFault_dirty (s : State) (r : FaultRecord) : (s.setFault r).dirty = s.dirty := rfl
@[simp] theorem setFault_awaitingKey (s : State) (r : FaultRecord) : (s.setFault r).awaitingKey = s.awaitingKey := rfl
@[simp] theorem setFault_fault (s : State) (r : FaultRecord) : (s.setFault r).fault = some r := rfl
@[simp] theorem setFault_progLen (s : State) (r : FaultRecord) : (s.setFault r).progLen = s.progLen := rfl
@[simp] theorem setFault_mem (s : State) (r : FaultRecord) : (s.setFault r).mem = s.mem := rfl
@[simp] theorem setFault_keys (s : State) (r : FaultRecord) : (s.setFault r).keys = s.keys := rfl
@[simp] theorem setFault_tick (s : State) (r : FaultRecord) : (s.setFault r).tick = s.tick := rfl
@[simp] theorem setFault_rnd (s : State) (r : FaultRecord) : (s.setFault r).rnd = s.rnd := rfl
@[simp] theorem setFault_cfg (s : State) (r : FaultRecord) : (s.setFault r).cfg = s.cfg := rfl
@[simp] theorem setFault_draws (s : State) (r : FaultRecord) : (s.setFault r).draws = s.draws := rfl
@[simp] theorem setFault_loadOpen (s : State) (r : FaultRecord) : (s.setFault r).loadOpen = s.loadOpen := rfl

/-! ## writeBytes -/

@[simp] theorem writeBytes_V (s : State) (a : Nat) (bs : List Byte) : (s.writeBytes a bs).V = s.V := rfl
@[simp] theorem writeBytes_I (s : State) (a : Nat) (bs : List Byte) : (s.writeBytes a bs).I = s.I := rfl
@[simp] theorem writeBytes_pc (s : State) (a : Nat) (bs : List Byte) : (s.writeBytes a bs).pc = s.pc := rfl
@[simp] theorem writeBytes_sp (s : State) (a : Nat) (bs : List Byte) : (s.writeBytes a bs).sp = s.sp := rfl
@[simp] theorem writeBytes_stack (s : State) (a : Nat) (bs : List Byte) : (s.writeBytes a bs).stack = s.stack := rfl
@[simp] theorem writeBytes_DT (s : State) (a : Nat) (bs : List Byte) : (s.writeBytes a bs).DT = s.DT := rfl
@[simp] theorem writeBytes_ST (s : State) (a : Nat) (bs : List Byte) : (s.writeBytes a bs).ST = s.ST := rfl
@[simp] theorem writeBytes_fb (s : State) (a : Nat) (bs : List Byte) : (s.writeBytes a bs).fb = s.fb := rfl
@[simp] theorem writeBytes_dirty (s : State) (a : Nat) (bs : List Byte) : (s.writeBytes a bs).dirty = s.dirty := rfl
@[simp] theorem writeBytes_awaitingKey (s : State) (a : Nat) (bs : List Byte) : (s.writeBytes a bs).awaitingKey = s.awaitingKey := rfl
@[simp] theorem writeBytes_fault (s : State) (a : Nat) (bs : List Byte) : (s.writeBytes a bs).fault = s.fault := rfl
@[simp] theorem writeBytes_progLen (s : State) (a : Nat) (bs : List Byte) : (s.writeBytes a bs).progLen = s.progLen := rfl
@[simp] theorem writeBytes_mem (s : State) (a : Nat) (bs : List Byte) : (s.writeBytes a bs).mem = Memory.writeBytes s.cfg.font s.mem a bs := rfl
@[simp] theorem writeBytes_keys (s : State) (a : Nat) (bs : List Byte) : (s.writeBytes a bs).keys = s.keys := rfl
@[simp] theorem writeBytes_tick (s : State) (a : Nat) (bs : List Byte) : (s.writeBytes a bs).tick = s.tick := rfl
@[simp] theorem writeBytes_rnd (s : State) (a : Nat) (bs : List Byte) : (s.writeBytes a bs).rnd = s.rnd := rfl
@[simp] theorem writeBytes_cfg (s : State) (a : Nat) (bs : List Byte) : (s.writeBytes a bs).cfg = s.cfg := rfl
@[simp] theorem writeBytes_draws (s : State) (a : Nat) (bs : List Byte) : (s.writeBytes a bs).draws = s.draws := rfl
@[simp] theorem writeBytes_loadOpen (s : State) (a : Nat) (bs : List Byte) : (s.writeBytes a bs).loadOpen = s.loadOpen := rfl

/-! ## writeRegs -/

@[simp] theorem writeRegs_V (s : State) (bs : List Byte) : (s.writeRegs bs).V = writeRegsFrom s.V 0 bs := rfl
@[simp] theorem writeRegs_I (s : State) (bs : List Byte) : (s.writeRegs bs).I = s.I := rfl
@[simp] theorem writeRegs_pc (s : State) (bs : List Byte) : (s.writeRegs bs).pc = s.pc := rfl
@[simp] theorem writeRegs_sp (s : State) (bs : List Byte) : (s.writeRegs bs).sp = s.sp := rfl
@[simp] theorem writeRegs_stack (s : State) (bs : List Byte) : (s.writeRegs bs).stack = s.stack := rfl
@[simp] theorem writeRegs_DT (s : State) (bs : List Byte) : (s.writeRegs bs).DT = s.DT := rfl
@[simp] theorem writeRegs_ST (s : State) (bs : List Byte) : (s.writeRegs bs).ST = s.ST := rfl
@[simp] theorem writeRegs_fb (s : State) (bs : List Byte) : (s.writeRegs bs).fb = s.fb := rfl
@[simp] theorem writeRegs_dirty (s : State) (bs : List Byte) : (s.writeRegs bs).dirty = s.dirty := rfl
@[simp] theorem writeRegs_awaitingKey (s : State) (bs : List Byte) : (s.writeRegs bs).awaitingKey = s.awaitingKey := rfl
@[simp] theorem writeRegs_fault (s : State) (bs : List Byte) : (s.writeRegs bs).fault = s.fault := rfl
@[simp] theorem writeRegs_progLen (s : State) (bs : List Byte) : (s.writeRegs bs).progLen = s.progLen := rfl
@[simp] theorem writeRegs_mem (s : State) (bs : List Byte) : (s.writeRegs bs).mem = s.mem := rfl
@[simp] theorem writeRegs_keys (s : State) (bs : List Byte) : (s.writeRegs bs).keys = s.keys := rfl
@[simp] theorem writeRegs_tick (s : State) (bs : List Byte) : (s.writeRegs bs).tick = s.tick := rfl
@[simp] theorem writeRegs_rnd (s : State) (bs : List Byte) : (s.writeRegs bs).rnd = s.rnd := rfl
@[simp] theorem writeRegs_cfg (s : State) (bs : List Byte) : (s.writeRegs bs).cfg = s.cfg := rfl
@[simp] theorem writeRegs_draws (s : State) (bs : List Byte) : (s.writeRegs bs).draws = s.draws := rfl
@[simp] theorem writeRegs_loadOpen (s : State) (bs : List Byte) : (s.writeRegs bs).loadOpen = s.loadOpen := rfl

/-! ## closeLoad -/

@[simp] theorem closeLoad_V (s : State) : (s.closeLoad).V = s.V := rfl
@[simp] theorem closeLoad_I (s : State) : (s.closeLoad).I = s.I := rfl
@[simp] theorem closeLoad_pc (s : State) : (s.closeLoad).pc = s.pc := rfl
@[simp] theorem closeLoad_sp (s : State) : (s.closeLoad).sp = s.sp := rfl
@[simp] theorem closeLoad_stack (s : State) : (s.closeLoad).stack = s.stack := rfl
@[simp] theorem closeLoad_DT (s : State) : (s.closeLoad).DT = s.DT := rfl
@[simp] theorem closeLoad_ST (s : State) : (s.closeLoad).ST = s.ST := rfl
@[simp] theorem closeLoad_fb (s : State) : (s.closeLoad).fb = s.fb := rfl
@[simp] theorem closeLoad_dirty (s : State) : (s.closeLoad).dirty = s.dirty := rfl
@[simp] theorem closeLoad_awaitingKey (s : State) : (s.closeLoad).awaitingKey = s.awaitingKey := rfl
@[simp] theorem closeLoad_fault (s : State) : (s.closeLoad).fault = s.fault := rfl
@[simp] theorem closeLoad_progLen (s : State) : (s.closeLoad).progLen = s.progLen := rfl
@[simp] theorem closeLoad_mem (s : State) : (s.closeLoad).mem = s.mem := rfl
@[simp] theorem closeLoad_keys (s : State) : (s.closeLoad).keys = s.keys := rfl
@[simp] theorem closeLoad_tick (s : State) : (s.closeLoad).tick = s.tick := rfl
@[simp] theorem closeLoad_rnd (s : State) : (s.closeLoad).rnd = s.rnd := rfl
@[simp] theorem closeLoad_cfg (s : State) : (s.closeLoad).cfg = s.cfg := rfl
@[simp] theorem closeLoad_draws (s : State) : (s.closeLoad).draws = s.draws := rfl
@[simp] theorem closeLoad_loadOpen (s : State) : (s.closeLoad).loadOpen = false := rfl

/-! ## nextInputs -/

@[simp] theorem nextInputs_V (s : State) : (s.nextInputs).V = s.V := rfl
@[simp] theorem nextInputs_I (s : State) : (s.nextInputs).I = s.I := rfl
@[simp] theorem nextInputs_pc (s : State) : (s.nextInputs).pc = s.pc := rfl
@[simp] theorem nextInputs_sp (s : State) : (s.nextInputs).sp = s.sp := rfl
@[simp] theorem nextInputs_stack (s : State) : (s.nextInputs).stack = s.stack := rfl
@[simp] theorem nextInputs_DT (s : State) : (s.nextInputs).DT = s.DT := rfl
@[simp] theorem nextInputs_ST (s : State) : (s.nextInputs).ST = s.ST := rfl
@[simp] theorem nextInputs_fb (s : State) : (s.nextInputs).fb = s.fb := rfl
@[simp] theorem nextInputs_dirty (s : State) : (s.nextInputs).dirty = s.dirty := rfl
@[simp] theorem nextInputs_awaitingKey (s : State) : (s.nextInputs).awaitingKey = s.awaitingKey := rfl
@[simp] theorem nextInputs_fault (s : State) : (s.nextInputs).fault = s.fault := rfl
@[simp] theorem nextInputs_progLen (s : State) : (s.nextInputs).progLen = s.progLen := rfl
@[simp] theorem nextInputs_mem (s : State) : (s.nextInputs).mem = s.mem := rfl
@[simp] theorem nextInputs_keys (s : State) : (s.nextInputs).keys = Config.freeKeys s.draws := rfl
@[simp] theorem nextInputs_tick (s : State) : (s.nextInputs).tick = Config.freeTick s.draws := rfl
@[simp] theorem nextInputs_rnd (s : State) : (s.nextInputs).rnd = Config.freeRnd s.draws := rfl
@[simp] theorem nextInputs_cfg (s : State) : (s.nextInputs).cfg = s.cfg := rfl
@[simp] theorem nextInputs_draws (s : State) : (s.nextInputs).draws = s.draws + 1 := rfl
@[simp] theorem nextInputs_loadOpen (s : State) : (s.nextInputs).loadOpen = s.loadOpen := rfl

/-! ## setInputs -/

@[simp] theorem setInputs_V (s : State) (k : Vector Bool 16) (c : Bool) (r : Byte) : (s.setInputs k c r).V = s.V := rfl
@[simp] theorem setInputs_I (s : State) (k : Vector Bool 16) (c : Bool) (r : Byte) : (s.setInputs k c r).I = s.I := rfl
@[simp] theorem setInputs_pc (s : State) (k : Vector Bool 16) (c : Bool) (r : Byte) : (s.setInputs k c r).pc = s.pc := rfl
@[simp] theorem setInputs_sp (s : State) (k : Vector Bool 16) (c : Bool) (r : Byte) : (s.setInputs k c r).sp = s.sp := rfl
@[simp] theorem setInputs_stack (s : State) (k : Vector Bool 16) (c : Bool) (r : Byte) : (s.setInputs k c r).stack = s.stack := rfl
@[simp] theorem setInputs_DT (s : State) (k : Vector Bool 16) (c : Bool) (r : Byte) : (s.setInputs k c r).DT = s.DT := rfl
@[simp] theorem setInputs_ST (s : State) (k : Vector Bool 16) (c : Bool) (r : Byte) : (s.setInputs k c r).ST = s.ST := rfl
@[simp] theorem setInputs_fb (s : State) (k : Vector Bool 16) (c : Bool) (r : Byte) : (s.setInputs k c r).fb = s.fb := rfl
@[simp] theorem setInputs_dirty (s : State) (k : Vector Bool 16) (c : Bool) (r : Byte) : (s.setInputs k c r).dirty = s.dirty := rfl
@[simp] theorem setInputs_awaitingKey (s : State) (k : Vector Bool 16) (c : Bool) (r : Byte) : (s.setInputs k c r).awaitingKey = s.awaitingKey := rfl
@[simp] theorem setInputs_fault (s : State) (k : Vector Bool 16) (c : Bool) (r : Byte) : (s.setInputs k c r).fault = s.fault := rfl
@[simp] theorem setInputs_progLen (s : State) (k : Vector Bool 16) (c : Bool) (r : Byte) : (s.setInputs k c r).progLen = s.progLen := rfl
@[simp] theorem setInputs_mem (s : State) (k : Vector Bool 16) (c : Bool) (r : Byte) : (s.setInputs k c r).mem = s.mem := rfl
@[simp] theorem setInputs_keys (s : State) (k : Vector Bool 16) (c : Bool) (r : Byte) : (s.setInputs k c r).keys = k := rfl
@[simp] theorem setInputs_tick (s : State) (k : Vector Bool 16) (c : Bool) (r : Byte) : (s.setInputs k c r).tick = c := rfl
@[simp] theorem setInputs_rnd (s : State) (k : Vector Bool 16) (c : Bool) (r : Byte) : (s.setInputs k c r).rnd = r := rfl
@[simp] theorem setInputs_cfg (s : State) (k : Vector Bool 16) (c : Bool) (r : Byte) : (s.setInputs k c r).cfg = s.cfg := rfl
@[simp] theorem setInputs_draws (s : State) (k : Vector Bool 16) (c : Bool) (r : Byte) : (s.setInputs k c r).draws = s.draws := rfl
@[simp] theorem setInputs_loadOpen (s : State) (k : Vector Bool 16) (c : Bool) (r : Byte) : (s.setInputs k c r).loadOpen = s.loadOpen := rfl

end Sys2Proof.Machine.State
end

