-- ==== Sys2Proof/Laws/Memory.lean ====
section
/-! SUPPORT. The laws of memory: read after write, the canonical form, and what the bounds checks answer. -/

namespace Sys2Proof.Machine

namespace Memory

theorem lookup_insert_self (m : Memory) (a : Nat) (v : Byte) : lookup (insert m a v) a = some v := by
  induction m with
  | nil => simp [insert, lookup]
  | cons c m ih =>
    obtain ⟨b, w⟩ := c
    simp only [insert]
    split
    · simp [lookup]
    · split
      · simp [lookup]
      · rename_i hne
        simp [lookup, hne, ih]

theorem lookup_insert_other (m : Memory) {a c : Nat} (v : Byte) (h : c ≠ a) :
    lookup (insert m a v) c = lookup m c := by
  induction m with
  | nil => simp [insert, lookup, h]
  | cons e m ih =>
    obtain ⟨b, w⟩ := e
    simp only [insert]
    split
    · simp [lookup, h]
    · split
      · rename_i hab
        subst hab
        simp [lookup, h]
      · simp [lookup, ih]

theorem lookup_remove_self (m : Memory) (a : Nat) : lookup (remove m a) a = none := by
  induction m with
  | nil => rfl
  | cons e m ih =>
    obtain ⟨b, w⟩ := e
    by_cases h : b = a
    · subst h
      simpa [remove] using ih
    · have : remove ((b, w) :: m) a = (b, w) :: remove m a := by simp [remove, h]
      rw [this, lookup, if_neg (Ne.symm h), ih]

theorem lookup_remove_other (m : Memory) {a c : Nat} (h : c ≠ a) : lookup (remove m a) c = lookup m c := by
  induction m with
  | nil => rfl
  | cons e m ih =>
    obtain ⟨b, w⟩ := e
    by_cases hb : b = a
    · subst hb
      have : remove ((b, w) :: m) b = remove m b := by simp [remove]
      rw [this, ih, lookup, if_neg h]
    · have : remove ((b, w) :: m) a = (b, w) :: remove m a := by simp [remove, hb]
      rw [this, lookup, lookup, ih]

/-- The byte just written is read back. -/
@[simp] theorem read_write_self (font : Vector Byte 80) (m : Memory) (a : Nat) (v : Byte) :
    read font (write font m a v) a = v := by
  unfold read write
  split
  · rename_i h
    simp [lookup_remove_self, h]
  · simp [lookup_insert_self]

/-- A write leaves every other address alone. -/
theorem read_write_other (font : Vector Byte 80) (m : Memory) {a c : Nat} (v : Byte) (h : c ≠ a) :
    read font (write font m a v) c = read font m c := by
  unfold read write
  split
  · rw [lookup_remove_other m h]
  · rw [lookup_insert_other m v h]

/-- Bytes written outside `a` leave `a` alone. -/
theorem read_writeBytes_outside (font : Vector Byte 80) (bs : List Byte) (m : Memory) (base a : Nat)
    (h : a < base ∨ base + bs.length ≤ a) : read font (writeBytes font m base bs) a = read font m a := by
  induction bs generalizing m base with
  | nil => rfl
  | cons b bs ih =>
    simp only [List.length_cons] at h
    rw [writeBytes, ih _ _ (by omega), read_write_other font m b (by omega)]

/-- Each byte written is read back. -/
theorem read_writeBytes_inside (font : Vector Byte 80) (bs : List Byte) (m : Memory) (base k : Nat)
    (h : k < bs.length) : read font (writeBytes font m base bs) (base + k) = bs[k] := by
  induction bs generalizing m base k with
  | nil => simp at h
  | cons b bs ih =>
    cases k with
    | zero =>
      rw [writeBytes, read_writeBytes_outside font bs _ _ _ (by omega)]
      simp
    | succ k =>
      have := ih (write font m base b) (base + 1) k (by simpa using h)
      rw [writeBytes, show base + (k + 1) = base + 1 + k by omega, this]
      simp

/-! ## The canonical form -/

theorem mem_insert_cases {m : Memory} {a : Nat} {v : Byte} {c : Host.Cell} (h : c ∈ insert m a v) :
    c = (a, v) ∨ c ∈ m := by
  induction m with
  | nil => simpa [insert] using h
  | cons e m ih =>
    obtain ⟨b, w⟩ := e
    simp only [insert] at h
    split at h
    · simpa using h
    · split at h
      · simp only [List.mem_cons] at h ⊢
        tauto
      · simp only [List.mem_cons] at h ⊢
        rcases h with h | h
        · exact .inr (.inl h)
        · exact (ih h).imp_right .inr

theorem pairwise_insert {m : Memory} (a : Nat) (v : Byte) (h : m.Pairwise fun c d => c.1 < d.1) :
    (insert m a v).Pairwise fun c d => c.1 < d.1 := by
  induction m with
  | nil => simp [insert]
  | cons e m ih =>
    obtain ⟨b, w⟩ := e
    have hhead := (List.pairwise_cons.1 h).1
    have htail := (List.pairwise_cons.1 h).2
    simp only [insert]
    split
    · rename_i hab
      refine List.pairwise_cons.2 ⟨fun d hd => ?_, h⟩
      rcases List.mem_cons.1 hd with rfl | hd
      · exact hab
      · exact Nat.lt_trans hab (hhead d hd)
    · split
      · rename_i hab
        subst hab
        exact List.pairwise_cons.2 ⟨hhead, htail⟩
      · rename_i h1 h2
        refine List.pairwise_cons.2 ⟨fun d hd => ?_, ih htail⟩
        rcases mem_insert_cases hd with rfl | hd
        · show b < a
          omega
        · exact hhead d hd

theorem wf_iff (font : Vector Byte 80) (m : Memory) : wf font m = true ↔
    m.Pairwise (fun c d => c.1 < d.1) ∧ ∀ c ∈ m, c.1 < 4096 ∧ c.2 ≠ unlisted font c.1 := by
  simp only [wf, Bool.and_eq_true, decide_eq_true_eq, List.all_eq_true]

theorem mem_write_cases {font : Vector Byte 80} {m : Memory} {a : Nat} {v : Byte} {c : Host.Cell}
    (h : c ∈ write font m a v) : (c = (a, v) ∧ v ≠ unlisted font a) ∨ c ∈ m := by
  unfold write at h
  split at h
  · exact .inr (List.mem_filter.1 h).1
  · rename_i hv
    exact (mem_insert_cases h).imp_left fun e => ⟨e, hv⟩

/-- A write inside memory keeps the canonical form. -/
theorem wf_write {font : Vector Byte 80} {m : Memory} {a : Nat} (v : Byte) (ha : a < 4096) (h : wf font m = true) :
    wf font (write font m a v) = true := by
  rw [wf_iff] at h ⊢
  refine ⟨?_, fun c hc => ?_⟩
  · unfold write
    split
    · exact h.1.filter _
    · exact pairwise_insert a v h.1
  · rcases mem_write_cases hc with ⟨rfl, hv⟩ | hc
    · exact ⟨ha, hv⟩
    · exact h.2 c hc

/-- Bytes written inside memory keep the canonical form. -/
theorem wf_writeBytes {font : Vector Byte 80} (bs : List Byte) {m : Memory} {base : Nat}
    (hb : base + bs.length ≤ 4096) (h : wf font m = true) : wf font (writeBytes font m base bs) = true := by
  induction bs generalizing m base with
  | nil => exact h
  | cons b bs ih =>
    simp only [List.length_cons] at hb
    exact ih (by omega) (wf_write b (by omega) h)

/-- A cell listed after bytes were written was listed before, or lies where they were written. -/
theorem mem_writeBytes_cases {font : Vector Byte 80} (bs : List Byte) {m : Memory} {base : Nat} {c : Host.Cell}
    (h : c ∈ writeBytes font m base bs) : (base ≤ c.1 ∧ c.1 < base + bs.length) ∨ c ∈ m := by
  induction bs generalizing m base with
  | nil => exact .inr h
  | cons b bs ih =>
    simp only [List.length_cons]
    rcases ih h with h | h
    · exact .inl ⟨by omega, by omega⟩
    · rcases mem_write_cases h with ⟨rfl, -⟩ | h
      · exact .inl ⟨by simp, by simp⟩
      · exact .inr h

/-- An address below every listed one reads as at creation. -/
theorem read_unlisted {font : Vector Byte 80} {m : Memory} {a : Nat} (h : ∀ c ∈ m, c.1 ≠ a) :
    read font m a = unlisted font a := by
  have : lookup m a = none := by
    induction m with
    | nil => rfl
    | cons e m ih =>
      obtain ⟨b, w⟩ := e
      rw [lookup, if_neg (Ne.symm (h (b, w) (by simp)))]
      exact ih fun c hc => h c (by simp [hc])
  simp [read, this]

end Memory

/-! ## Bytes of a state -/

theorem readByte_writeBytes_outside (s : State) (bs : List Byte) (base a : Nat)
    (h : a < base ∨ base + bs.length ≤ a) : (s.writeBytes base bs).readByte a = s.readByte a :=
  Memory.read_writeBytes_outside s.cfg.font bs s.mem base a h

theorem readByte_writeBytes_inside (s : State) (bs : List Byte) (base k : Nat) (h : k < bs.length) :
    (s.writeBytes base bs).readByte (base + k) = bs[k] :=
  Memory.read_writeBytes_inside s.cfg.font bs s.mem base k h

/-- A state with the same memory and font reads the same bytes. -/
theorem readByte_congr {s t : State} (hm : t.mem = s.mem) (hc : t.cfg.font = s.cfg.font) (a : Nat) :
    t.readByte a = s.readByte a := by
  unfold State.readByte
  rw [hm, hc]

@[simp] theorem length_readBytes (s : State) (a n : Nat) : (s.readBytes a n).length = n := by simp [State.readBytes]

theorem getElem_readBytes (s : State) (a n k : Nat) (h : k < (s.readBytes a n).length) :
    (s.readBytes a n)[k] = s.readByte (a + k) := by simp [State.readBytes]

/-! ## The checks -/

/-- No address of a block fails: the block lies in memory. -/
theorem firstFailing_read_none {base n : Nat} (h : n = 0 ∨ base + n ≤ 4096) : firstFailing readCheck base n = none := by
  simp only [firstFailing, List.findSome?_eq_none_iff, List.mem_map, List.mem_range]
  rintro _ ⟨k, hk, rfl⟩
  simp only [readCheck, ite_eq_right_iff]
  omega

/-- No address of a block fails: the block lies in memory, above the font. -/
theorem firstFailing_write_none {base n : Nat} (h : base + n ≤ 4096) (h80 : 80 ≤ base) :
    firstFailing writeCheck base n = none := by
  simp only [firstFailing, List.findSome?_eq_none_iff, List.mem_map, List.mem_range]
  rintro _ ⟨k, hk, rfl⟩
  simp only [writeCheck]
  rw [if_neg (by omega), if_neg (by omega)]

/-- The first failing address of a block whose address `k` fails and whose earlier ones do not. -/
theorem firstFailing_at {check : Nat → Option (Nat × AccessKind)} {base n k : Nat} {r : Nat × AccessKind} (hk : k < n)
    (hfail : check (base + k) = some r) (hbefore : ∀ j, j < k → check (base + j) = none) :
    firstFailing check base n = some r := by
  have hsplit : List.range n = List.range k ++ k :: (List.range (n - k - 1)).map (k + 1 + ·) := by
    have h1 : n = k + (1 + (n - k - 1)) := by omega
    conv_lhs => rw [h1]
    rw [List.range_add, List.range_add]
    simp [List.range_succ, Nat.add_assoc, Function.comp_def]
  rw [firstFailing, hsplit, List.map_append, List.findSome?_append, List.map_cons, List.findSome?_cons, hfail]
  have : ((List.range k).map (base + ·)).findSome? check = none := by
    simp only [List.findSome?_eq_none_iff, List.mem_map, List.mem_range]
    rintro _ ⟨j, hj, rfl⟩
    exact hbefore j hj
  rw [this]
  rfl

/-- A block read that runs past memory fails at its first address above 4095 (R56). -/
theorem firstFailing_read_high {base n : Nat} (hn : 1 ≤ n) (h : 4096 < base + n) :
    firstFailing readCheck base n = some (max base 4096, .read) := by
  refine firstFailing_at (k := max base 4096 - base) (by omega) ?_ fun j hj => ?_
  · rw [show base + (max base 4096 - base) = max base 4096 by omega, readCheck, if_pos (by omega)]
  · rw [readCheck, if_neg (by omega)]

/-- A block write that runs past memory, above the font, fails at its first address above 4095 (R56). -/
theorem firstFailing_write_high {base n : Nat} (hn : 1 ≤ n) (h : 4096 < base + n) (h80 : 80 ≤ base) :
    firstFailing writeCheck base n = some (max base 4096, .write) := by
  refine firstFailing_at (k := max base 4096 - base) (by omega) ?_ fun j hj => ?_
  · rw [show base + (max base 4096 - base) = max base 4096 by omega, writeCheck, if_pos (by omega)]
  · rw [writeCheck, if_neg (by omega), if_neg (by omega)]

/-- A block write that starts in the font fails at its first address (R57). -/
theorem firstFailing_write_font {base n : Nat} (hn : 1 ≤ n) (h : base ≤ 79) :
    firstFailing writeCheck base n = some (base, .fontWrite) := by
  refine firstFailing_at (k := 0) (by omega) ?_ fun j hj => absurd hj (Nat.not_lt_zero j)
  rw [writeCheck, Nat.add_zero, if_neg (by omega), if_pos h]

/-- What a passed write check says of the block. -/
theorem writable_of_firstFailing_none {base n : Nat} (hn : 1 ≤ n) (h : firstFailing writeCheck base n = none) :
    80 ≤ base ∧ base + n ≤ 4096 := by
  by_contra hc
  rcases Nat.lt_or_ge base 80 with h80 | h80
  · rw [firstFailing_write_font hn (by omega)] at h
    exact Option.some_ne_none _ h
  · rw [firstFailing_write_high hn (by omega) h80] at h
    exact Option.some_ne_none _ h

end Sys2Proof.Machine
end

