-- ==== Sys2Proof/Laws/Display.lean ====
section
/-! SUPPORT. What drawing a sprite does to each pixel and to the collision flag (spec 43_display.md R172–R174). -/

namespace Sys2Proof.Machine

namespace Framebuffer

@[simp] theorem pixel_blank (x : Fin 64) (y : Fin 32) : pixel blank x y = false := by
  simp [pixel, blank]

@[simp] theorem pixel_flip_self (fb : Framebuffer) (x : Fin 64) (y : Fin 32) :
    pixel (flip fb x y) x y = !pixel fb x y := by
  simp [pixel, flip]

theorem pixel_flip_other (fb : Framebuffer) {x p : Fin 64} {y q : Fin 32} (h : ¬ (p = x ∧ q = y)) :
    pixel (flip fb x y) p q = pixel fb p q := by
  by_cases hq : q = y
  · subst hq
    have hp : p.val ≠ x.val := fun e => h ⟨Fin.ext e, rfl⟩
    simp [pixel, flip, hp]
  · have : y.val ≠ q.val := fun e => hq (Fin.ext e.symm)
    simp [pixel, flip, this]

end Framebuffer

open Framebuffer

/-- The column `col` of the sprite row `bits` lands on the pixel `p` of the row. -/
def lands (bits : Byte) (cx : Nat) (p : Fin 64) (col : Nat) : Prop :=
  bits.getLsbD (7 - col) = true ∧ p = Fin.ofNat 64 (cx + col)

theorem ofNat_col_inj {cx c d : Nat} (hc : c < 8) (hd : d < 8)
    (h : Fin.ofNat 64 (cx + c) = Fin.ofNat 64 (cx + d)) : c = d := by
  have := congrArg Fin.val h
  simp only [Fin.ofNat_eq_cast, Fin.val_natCast] at this
  omega

/-- After the columns below `k` of a row: each pixel of the screen row a set bit landed on is flipped, no other is, and
the collision flag says whether one of them was on. -/
theorem drawColumns_spec (bits : Byte) (cx : Nat) (py : Fin 32) (acc : Blit) (k : Nat) (hk : k ≤ 8) :
    let r := (List.range k).foldl (drawColumn bits cx py) acc
    (∀ p q, q = py → (∃ c, c < k ∧ lands bits cx p c) → pixel r.1 p q = !pixel acc.1 p q) ∧
    (∀ p q, ¬ (q = py ∧ ∃ c, c < k ∧ lands bits cx p c) → pixel r.1 p q = pixel acc.1 p q) ∧
    (r.2 = true ↔ acc.2 = true ∨ ∃ p c, c < k ∧ lands bits cx p c ∧ pixel acc.1 p py = true) := by
  induction k with
  | zero => simp
  | succ k ih =>
    obtain ⟨ih1, ih2, ih3⟩ := ih (by omega)
    simp only [List.range_succ, List.foldl_append, List.foldl_cons, List.foldl_nil]
    generalize (List.range k).foldl (drawColumn bits cx py) acc = r at ih1 ih2 ih3 ⊢
    simp only [drawColumn]
    split
    · rename_i hbit
      have hnew : ∀ c, c < k → ¬ lands bits cx (Fin.ofNat 64 (cx + k)) c := fun c hc hl =>
        absurd (ofNat_col_inj (by omega) (by omega) hl.2) (by omega)
      have hold : pixel r.1 (Fin.ofNat 64 (cx + k)) py = pixel acc.1 (Fin.ofNat 64 (cx + k)) py :=
        ih2 _ _ fun ⟨_, c, hc, hl⟩ => hnew c hc hl
      refine ⟨fun p q hq ⟨c, hc, hl⟩ => ?_, fun p q hno => ?_, ?_⟩
      · subst hq
        by_cases hp : p = Fin.ofNat 64 (cx + k)
        · subst hp
          rw [pixel_flip_self, hold]
        · have hck : c ≠ k := fun e => hp (e ▸ hl.2)
          rw [pixel_flip_other _ (fun h => hp h.1)]
          exact ih1 p q rfl ⟨c, by omega, hl⟩
      · rw [pixel_flip_other _ (fun h => hno ⟨h.2, k, by omega, hbit, h.1⟩)]
        exact ih2 p q fun ⟨hq, c, hc, hl⟩ => hno ⟨hq, c, by omega, hl⟩
      · rw [Bool.or_eq_true, ih3, hold]
        constructor
        · rintro ((h | ⟨p, c, hc, hl, hp⟩) | h)
          · exact .inl h
          · exact .inr ⟨p, c, by omega, hl, hp⟩
          · exact .inr ⟨_, k, by omega, ⟨hbit, rfl⟩, h⟩
        · rintro (h | ⟨p, c, hc, hl, hp⟩)
          · exact .inl (.inl h)
          · by_cases hck : c = k
            · subst hck
              exact .inr (hl.2 ▸ hp)
            · exact .inl (.inr ⟨p, c, by omega, hl, hp⟩)
    · rename_i hbit
      have hno : ∀ p, ¬ lands bits cx p k := fun p hl => hbit hl.1
      have hiff : ∀ p, (∃ c, c < k + 1 ∧ lands bits cx p c) ↔ ∃ c, c < k ∧ lands bits cx p c := fun p =>
        ⟨fun ⟨c, hc, hl⟩ => ⟨c, by
          rcases Nat.lt_succ_iff_lt_or_eq.1 hc with h | h
          · exact h
          · exact absurd (h ▸ hl) (hno p), hl⟩,
         fun ⟨c, hc, hl⟩ => ⟨c, by omega, hl⟩⟩
      refine ⟨fun p q hq h => ih1 p q hq ((hiff p).1 h), fun p q h => ih2 p q fun ⟨hq, hc⟩ => h ⟨hq, (hiff p).2 hc⟩, ?_⟩
      rw [ih3]
      refine or_congr_right ⟨fun ⟨p, c, hc, hl, hp⟩ => ⟨p, c, by omega, hl, hp⟩, fun ⟨p, c, hc, hl, hp⟩ => ?_⟩
      obtain ⟨c', hc', hl'⟩ := (hiff p).1 ⟨c, hc, hl⟩
      exact ⟨p, c', hc', hl', hp⟩

/-- One sprite row (`drawColumns_spec` with all eight columns). -/
theorem drawRow_spec (bits : Byte) (cx : Nat) (py : Fin 32) (acc : Blit) :
    (∀ p q, q = py → (∃ c, c < 8 ∧ lands bits cx p c) → pixel (drawRow bits cx py acc).1 p q = !pixel acc.1 p q) ∧
    (∀ p q, ¬ (q = py ∧ ∃ c, c < 8 ∧ lands bits cx p c) → pixel (drawRow bits cx py acc).1 p q = pixel acc.1 p q) ∧
    ((drawRow bits cx py acc).2 = true ↔
      acc.2 = true ∨ ∃ p c, c < 8 ∧ lands bits cx p c ∧ pixel acc.1 p py = true) :=
  drawColumns_spec bits cx py acc 8 (Nat.le_refl 8)

/-- A set bit of the sprite `bytes`, drawn at column `cx` and row `cy`, lands on the pixel (R170, R172, R173). -/
def Covers (cx cy : Nat) (bytes : List Byte) (p : Fin 64) (q : Fin 32) : Prop :=
  ∃ row, ∃ h : row < bytes.length, q = Fin.ofNat 32 (cy + row) ∧ ∃ c, c < 8 ∧ lands bytes[row] cx p c

theorem covers_cons {cx cy : Nat} {b : Byte} {bs : List Byte} {p : Fin 64} {q : Fin 32} :
    Covers cx cy (b :: bs) p q ↔
      (q = Fin.ofNat 32 cy ∧ ∃ c, c < 8 ∧ lands b cx p c) ∨ Covers cx (cy + 1) bs p q := by
  constructor
  · rintro ⟨row, h, hq, hc⟩
    cases row with
    | zero => exact .inl ⟨by simpa using hq, by simpa using hc⟩
    | succ row =>
      exact .inr ⟨row, by simpa using h, by rw [hq]; congr 1; omega, by simpa using hc⟩
  · rintro (⟨hq, hc⟩ | ⟨row, h, hq, hc⟩)
    · exact ⟨0, by simp, by simpa using hq, by simpa using hc⟩
    · exact ⟨row + 1, by simpa using h, by rw [hq]; congr 1; omega, by simpa using hc⟩

/-- A sprite of at most 32 rows drawn from `acc`: exactly the covered pixels are flipped, and the collision flag says
whether a covered pixel was on (R172–R174). -/
theorem drawRows_spec (cx cy : Nat) (bytes : List Byte) (acc : Blit) (hlen : bytes.length ≤ 32) :
    (∀ p q, Covers cx cy bytes p q → pixel (drawRows cx cy bytes acc).1 p q = !pixel acc.1 p q) ∧
    (∀ p q, ¬ Covers cx cy bytes p q → pixel (drawRows cx cy bytes acc).1 p q = pixel acc.1 p q) ∧
    ((drawRows cx cy bytes acc).2 = true ↔
      acc.2 = true ∨ ∃ p q, Covers cx cy bytes p q ∧ pixel acc.1 p q = true) := by
  induction bytes generalizing cy acc with
  | nil => simp [drawRows, Covers]
  | cons b bs ih =>
    simp only [List.length_cons] at hlen
    obtain ⟨ih1, ih2, ih3⟩ := ih (cy + 1) (drawRow b cx (Fin.ofNat 32 cy) acc) (by omega)
    obtain ⟨r1, r2, r3⟩ := drawRow_spec b cx (Fin.ofNat 32 cy) acc
    have hdisj : ∀ p q, q = Fin.ofNat 32 cy → ¬ Covers cx (cy + 1) bs p q := by
      rintro p q hq ⟨row, h, hq', -⟩
      have := congrArg Fin.val (hq.symm.trans hq')
      simp only [Fin.ofNat_eq_cast, Fin.val_natCast] at this
      omega
    simp only [drawRows]
    refine ⟨fun p q hc => ?_, fun p q hc => ?_, ?_⟩
    · rcases covers_cons.1 hc with ⟨hq, hb⟩ | hb
      · rw [ih2 p q (hdisj p q hq), r1 p q hq hb]
      · rw [ih1 p q hb, r2 p q fun h => hdisj p q h.1 hb]
    · rw [covers_cons, not_or] at hc
      rw [ih2 p q hc.2, r2 p q hc.1]
    · rw [ih3, r3]
      constructor
      · rintro ((h | ⟨p, c, hc, hl, hp⟩) | ⟨p, q, hc, hp⟩)
        · exact .inl h
        · exact .inr ⟨p, _, covers_cons.2 (.inl ⟨rfl, c, hc, hl⟩), hp⟩
        · rw [r2 p q fun h => hdisj p q h.1 hc] at hp
          exact .inr ⟨p, q, covers_cons.2 (.inr hc), hp⟩
      · rintro (h | ⟨p, q, hc, hp⟩)
        · exact .inl (.inl h)
        · rcases covers_cons.1 hc with ⟨rfl, c, hc, hl⟩ | hb
          · exact .inl (.inr ⟨p, c, hc, hl, hp⟩)
          · refine .inr ⟨p, q, hb, ?_⟩
            rw [r2 p q fun h => hdisj p q h.1 hb]
            exact hp

/-- A sprite of no bytes changes nothing (R175). -/
@[simp] theorem drawRows_nil (cx cy : Nat) (acc : Blit) : drawRows cx cy [] acc = acc := rfl

/-- A frame is its pixels. -/
theorem framebuffer_ext {f g : Framebuffer} (h : ∀ x y, pixel f x y = pixel g x y) : f = g := by
  apply Vector.ext
  intro y hy
  apply BitVec.eq_of_getLsbD_eq
  intro x hx
  exact h ⟨x, hx⟩ ⟨y, hy⟩

end Sys2Proof.Machine
end

