-- ==== Sys2Proof/Laws/Exec.lean ====
section
/-! SUPPORT. What each shared operation of the meanings can do, said once: fault entry, the stack, the checked accesses,
the flag writer, register lists; and what `exec` can do in general. -/

namespace Sys2Proof.Machine

/-! ## Registers -/

@[simp] theorem State.readV_eq (s : State) (r : Reg) : s.readV r = s.V[r] := rfl

@[simp] theorem State.readV_writeV_self (s : State) (r : Reg) (b : Byte) : (s.writeV r b).V[r] = b := by
  simp

theorem State.readV_writeV_other (s : State) {r q : Reg} (b : Byte) (h : q ≠ r) : (s.writeV r b).V[q] = s.V[q] := by
  have : r.val ≠ q.val := fun e => h (Fin.ext e.symm)
  simp [this]

theorem length_regsUpTo (s : State) (x : Reg) : (s.regsUpTo x).length = x.val + 1 := by
  have := x.isLt
  simp only [State.regsUpTo, List.length_take, Vector.length_toList]
  omega

theorem getElem_regsUpTo (s : State) (x : Reg) (k : Nat) (h : k < (s.regsUpTo x).length) :
    (s.regsUpTo x)[k] = s.V[Fin.ofNat 16 k] := by
  have hx := x.isLt
  rw [length_regsUpTo] at h
  have hk : k % 16 = k := Nat.mod_eq_of_lt (by omega)
  simp [State.regsUpTo, hk]

/-- Registers written from `k` on: those in range take their byte, the others keep their value. -/
theorem getElem_writeRegsFrom (bs : List Byte) (V : Vector Byte 16) (k q : Nat) (hq : q < 16) :
    (writeRegsFrom V k bs)[q] = if h : k ≤ q ∧ q - k < bs.length then bs[q - k]'h.2 else V[q] := by
  induction bs generalizing V k with
  | nil => simp [writeRegsFrom]
  | cons b bs ih =>
    rw [writeRegsFrom, ih]
    by_cases h1 : k + 1 ≤ q ∧ q - (k + 1) < bs.length
    · rw [dif_pos h1, dif_pos ⟨by omega, by simp only [List.length_cons]; omega⟩]
      have : q - k = (q - (k + 1)) + 1 := by omega
      simp only [this, List.getElem_cons_succ]
    · rw [dif_neg h1]
      by_cases hk : k = q
      · subst hk
        simp
      · rw [dif_neg (by simp only [List.length_cons]; omega)]
        simp [hk]

/-! ## The word at `pc` -/

theorem State.fetchWord_eq (s : State) : s.fetchWord = BitVec.ofNat 16
    ((s.readByte s.pc.toNat).toNat * 256 + (s.readByte (s.pc.toNat + 1)).toNat) := composeWord_eq _ _

/-! ## Fault entry -/

/-- Fault entry writes the record and nothing else (R234). -/
theorem State.raise_eq (s : State) (kind : FaultKind) (info : FaultInfo) : s.raise kind info =
    .next { s with fault := some { kind := kind, pc := s.pc, opcode := s.faultOpcode kind, info := info } } := rfl

theorem State.faultOpcode_of_ne (s : State) {kind : FaultKind} (h : kind ≠ .outOfBounds) :
    s.faultOpcode kind = some s.fetchWord := by
  cases kind <;> first | rfl | exact absurd rfl h

/-! ## The stack -/

/-- A push below the capacity (R24). -/
theorem State.push_of_lt (s : State) (w : Word) (h : s.sp.val < 16) : s.push w =
    some { s with stack := s.stack.set s.sp.val w, sp := ⟨s.sp.val + 1, Nat.succ_lt_succ h⟩ } := dif_pos h

/-- A push at the capacity (R25). -/
theorem State.push_full (s : State) (w : Word) (h : s.sp.val = 16) : s.push w = none :=
  dif_neg (by omega)

/-- A pop of a non-empty stack (R24). -/
theorem State.pop_of_succ (s : State) (j : Fin 16) (h : s.sp.val = j.val + 1) :
    s.pop = some (s.stack[j], { s with sp := ⟨j.val, Nat.lt_succ_of_lt j.isLt⟩ }) := by
  obtain ⟨V, I, pc, ⟨n, hn⟩, stack⟩ := s
  simp only at h
  subst h
  rfl

/-- A pop of an empty stack (R25). -/
theorem State.pop_empty (s : State) (h : s.sp.val = 0) : s.pop = none := by
  obtain ⟨V, I, pc, ⟨n, hn⟩, stack⟩ := s
  simp only at h
  subst h
  rfl

/-! ## Checked accesses -/

/-- A store inside memory and above the font (R57, R60). -/
theorem State.storeChecked_ok (s : State) {base : Nat} {bs : List Byte} (h80 : 80 ≤ base)
    (h : base + bs.length ≤ 4096) : s.storeChecked base bs = .next (s.writeBytes base bs).advance := by
  rw [State.storeChecked, firstFailing_write_none h h80]

/-- A store that starts in the font (R57). -/
theorem State.storeChecked_font (s : State) {base : Nat} {bs : List Byte} (hn : 1 ≤ bs.length) (h : base ≤ 79) :
    s.storeChecked base bs = s.raise .memoryAccess (.access base .fontWrite) := by
  rw [State.storeChecked, firstFailing_write_font hn h]

/-- A store that runs past memory (R56). -/
theorem State.storeChecked_high (s : State) {base : Nat} {bs : List Byte} (hn : 1 ≤ bs.length) (h80 : 80 ≤ base)
    (h : 4096 < base + bs.length) :
    s.storeChecked base bs = s.raise .memoryAccess (.access (max base 4096) .write) := by
  rw [State.storeChecked, firstFailing_write_high hn h h80]

/-- Everything a checked store can do. -/
theorem State.storeChecked_cases {s t : State} {base : Nat} {bs : List Byte} (hn : 1 ≤ bs.length)
    (h : s.storeChecked base bs = .next t) :
    (80 ≤ base ∧ base + bs.length ≤ 4096 ∧ t = (s.writeBytes base bs).advance) ∨
      ∃ a k, t = s.setFault (s.faultRecord .memoryAccess (.access a k)) := by
  unfold State.storeChecked at h
  split at h
  · rename_i a k _
    exact .inr ⟨a, k, (Host.Outcome.next.inj h).symm⟩
  · rename_i hc
    have := writable_of_firstFailing_none hn hc
    exact .inl ⟨this.1, this.2, (Host.Outcome.next.inj h).symm⟩

/-- A block read inside memory (R60). -/
theorem State.loadChecked_ok (s : State) {base n : Nat} (use : List Byte → State) (h : n = 0 ∨ base + n ≤ 4096) :
    s.loadChecked base n use = .next (use (s.readBytes base n)).advance := by
  rw [State.loadChecked, firstFailing_read_none h]

/-- A block read that runs past memory (R56). -/
theorem State.loadChecked_high (s : State) {base n : Nat} (use : List Byte → State) (hn : 1 ≤ n)
    (h : 4096 < base + n) :
    s.loadChecked base n use = s.raise .memoryAccess (.access (max base 4096) .read) := by
  rw [State.loadChecked, firstFailing_read_high hn h]

/-- Everything a checked block read can do. -/
theorem State.loadChecked_cases {s t : State} {base n : Nat} {use : List Byte → State}
    (h : s.loadChecked base n use = .next t) :
    t = (use (s.readBytes base n)).advance ∨ ∃ a k, t = s.setFault (s.faultRecord .memoryAccess (.access a k)) := by
  unfold State.loadChecked at h
  split at h
  · rename_i a k _
    exact .inr ⟨a, k, (Host.Outcome.next.inj h).symm⟩
  · exact .inl (Host.Outcome.next.inj h).symm

/-! ## The flag writer -/

/-- The flag writer changes registers only. -/
theorem State.writeFlagged_eq (s : State) (x y : Reg) (r : Byte → Byte → Byte) (f : Byte → Byte → Bool) :
    s.writeFlagged x y r f = { s with V := (s.writeFlagged x y r f).V } := by
  unfold State.writeFlagged
  cases s.cfg.vfDestOrder <;> rfl

@[simp] theorem State.writeFlagged_I (s : State) (x y : Reg) (r : Byte → Byte → Byte) (f : Byte → Byte → Bool) :
    (s.writeFlagged x y r f).I = s.I := by rw [State.writeFlagged_eq]
@[simp] theorem State.writeFlagged_pc (s : State) (x y : Reg) (r : Byte → Byte → Byte) (f : Byte → Byte → Bool) :
    (s.writeFlagged x y r f).pc = s.pc := by rw [State.writeFlagged_eq]
@[simp] theorem State.writeFlagged_sp (s : State) (x y : Reg) (r : Byte → Byte → Byte) (f : Byte → Byte → Bool) :
    (s.writeFlagged x y r f).sp = s.sp := by rw [State.writeFlagged_eq]
@[simp] theorem State.writeFlagged_stack (s : State) (x y : Reg) (r : Byte → Byte → Byte) (f : Byte → Byte → Bool) :
    (s.writeFlagged x y r f).stack = s.stack := by rw [State.writeFlagged_eq]
@[simp] theorem State.writeFlagged_DT (s : State) (x y : Reg) (r : Byte → Byte → Byte) (f : Byte → Byte → Bool) :
    (s.writeFlagged x y r f).DT = s.DT := by rw [State.writeFlagged_eq]
@[simp] theorem State.writeFlagged_ST (s : State) (x y : Reg) (r : Byte → Byte → Byte) (f : Byte → Byte → Bool) :
    (s.writeFlagged x y r f).ST = s.ST := by rw [State.writeFlagged_eq]
@[simp] theorem State.writeFlagged_fb (s : State) (x y : Reg) (r : Byte → Byte → Byte) (f : Byte → Byte → Bool) :
    (s.writeFlagged x y r f).fb = s.fb := by rw [State.writeFlagged_eq]
@[simp] theorem State.writeFlagged_dirty (s : State) (x y : Reg) (r : Byte → Byte → Byte) (f : Byte → Byte → Bool) :
    (s.writeFlagged x y r f).dirty = s.dirty := by rw [State.writeFlagged_eq]
@[simp] theorem State.writeFlagged_awaitingKey (s : State) (x y : Reg) (r : Byte → Byte → Byte) (f : Byte → Byte → Bool) :
    (s.writeFlagged x y r f).awaitingKey = s.awaitingKey := by rw [State.writeFlagged_eq]
@[simp] theorem State.writeFlagged_fault (s : State) (x y : Reg) (r : Byte → Byte → Byte) (f : Byte → Byte → Bool) :
    (s.writeFlagged x y r f).fault = s.fault := by rw [State.writeFlagged_eq]
@[simp] theorem State.writeFlagged_progLen (s : State) (x y : Reg) (r : Byte → Byte → Byte) (f : Byte → Byte → Bool) :
    (s.writeFlagged x y r f).progLen = s.progLen := by rw [State.writeFlagged_eq]
@[simp] theorem State.writeFlagged_mem (s : State) (x y : Reg) (r : Byte → Byte → Byte) (f : Byte → Byte → Bool) :
    (s.writeFlagged x y r f).mem = s.mem := by rw [State.writeFlagged_eq]
@[simp] theorem State.writeFlagged_keys (s : State) (x y : Reg) (r : Byte → Byte → Byte) (f : Byte → Byte → Bool) :
    (s.writeFlagged x y r f).keys = s.keys := by rw [State.writeFlagged_eq]
@[simp] theorem State.writeFlagged_tick (s : State) (x y : Reg) (r : Byte → Byte → Byte) (f : Byte → Byte → Bool) :
    (s.writeFlagged x y r f).tick = s.tick := by rw [State.writeFlagged_eq]
@[simp] theorem State.writeFlagged_rnd (s : State) (x y : Reg) (r : Byte → Byte → Byte) (f : Byte → Byte → Bool) :
    (s.writeFlagged x y r f).rnd = s.rnd := by rw [State.writeFlagged_eq]
@[simp] theorem State.writeFlagged_cfg (s : State) (x y : Reg) (r : Byte → Byte → Byte) (f : Byte → Byte → Bool) :
    (s.writeFlagged x y r f).cfg = s.cfg := by rw [State.writeFlagged_eq]
@[simp] theorem State.writeFlagged_draws (s : State) (x y : Reg) (r : Byte → Byte → Byte) (f : Byte → Byte → Bool) :
    (s.writeFlagged x y r f).draws = s.draws := by rw [State.writeFlagged_eq]
@[simp] theorem State.writeFlagged_loadOpen (s : State) (x y : Reg) (r : Byte → Byte → Byte) (f : Byte → Byte → Bool) :
    (s.writeFlagged x y r f).loadOpen = s.loadOpen := by rw [State.writeFlagged_eq]

/-- The flag writer changes `V[x]` and VF only. -/
theorem State.writeFlagged_other (s : State) (x y q : Reg) (r : Byte → Byte → Byte) (f : Byte → Byte → Bool)
    (hx : q ≠ x) (hf : q ≠ VF) : (s.writeFlagged x y r f).V[q] = s.V[q] := by
  unfold State.writeFlagged
  cases s.cfg.vfDestOrder <;> simp only [State.readV_writeV_other _ _ hx, State.readV_writeV_other _ _ hf]

/-- `flag_last`: the operands are latched, VF ends holding the flag (R140). -/
theorem State.writeFlagged_flagLast (s : State) (x y : Reg) (r : Byte → Byte → Byte) (f : Byte → Byte → Bool)
    (h : s.cfg.vfDestOrder = .flagLast) :
    (s.writeFlagged x y r f).V[VF] = flagByte (f s.V[x] s.V[y]) ∧
      (x ≠ VF → (s.writeFlagged x y r f).V[x] = r s.V[x] s.V[y]) := by
  unfold State.writeFlagged
  rw [h]
  refine ⟨State.readV_writeV_self _ _ _, fun hx => ?_⟩
  rw [State.readV_writeV_other _ _ hx, State.readV_writeV_self]
  rfl

/-- `result_last`: the operands are latched, `V[x]` ends holding the result (R140). -/
theorem State.writeFlagged_resultLast (s : State) (x y : Reg) (r : Byte → Byte → Byte) (f : Byte → Byte → Bool)
    (h : s.cfg.vfDestOrder = .resultLast) :
    (s.writeFlagged x y r f).V[x] = r s.V[x] s.V[y] ∧
      (x ≠ VF → (s.writeFlagged x y r f).V[VF] = flagByte (f s.V[x] s.V[y])) := by
  unfold State.writeFlagged
  rw [h]
  refine ⟨State.readV_writeV_self _ _ _, fun hx => ?_⟩
  rw [State.readV_writeV_other _ _ (Ne.symm hx), State.readV_writeV_self]
  rfl

/-- `doc_sequential`: the operands of the result are read again after the flag is written (R140). -/
theorem State.writeFlagged_docSequential (s : State) (x y : Reg) (r : Byte → Byte → Byte) (f : Byte → Byte → Bool)
    (h : s.cfg.vfDestOrder = .docSequential) :
    (s.writeFlagged x y r f).V[x] = r (if x = VF then flagByte (f s.V[x] s.V[y]) else s.V[x])
        (if y = VF then flagByte (f s.V[x] s.V[y]) else s.V[y]) ∧
      (x ≠ VF → (s.writeFlagged x y r f).V[VF] = flagByte (f s.V[x] s.V[y])) := by
  have hread : ∀ q : Reg, (s.writeV VF (flagByte (f s.V[x] s.V[y]))).V[q] =
      if q = VF then flagByte (f s.V[x] s.V[y]) else s.V[q] := by
    intro q
    split
    · rename_i hq
      subst hq
      exact State.readV_writeV_self _ _ _
    · rename_i hq
      exact State.readV_writeV_other _ _ hq
  unfold State.writeFlagged
  rw [h]
  refine ⟨?_, fun hx => ?_⟩
  · simp only [State.readV_writeV_self, State.readV_eq, hread]
  · rw [State.readV_writeV_other _ _ (Ne.symm hx), State.readV_writeV_self]
    rfl

/-! ## The drawn sprite -/

@[simp] theorem State.drawSprite_I (s : State) (x y : Reg) (bs : List Byte) :
    (s.drawSprite x y bs).I = s.I := rfl
@[simp] theorem State.drawSprite_pc (s : State) (x y : Reg) (bs : List Byte) :
    (s.drawSprite x y bs).pc = s.pc := rfl
@[simp] theorem State.drawSprite_sp (s : State) (x y : Reg) (bs : List Byte) :
    (s.drawSprite x y bs).sp = s.sp := rfl
@[simp] theorem State.drawSprite_stack (s : State) (x y : Reg) (bs : List Byte) :
    (s.drawSprite x y bs).stack = s.stack := rfl
@[simp] theorem State.drawSprite_DT (s : State) (x y : Reg) (bs : List Byte) :
    (s.drawSprite x y bs).DT = s.DT := rfl
@[simp] theorem State.drawSprite_ST (s : State) (x y : Reg) (bs : List Byte) :
    (s.drawSprite x y bs).ST = s.ST := rfl
@[simp] theorem State.drawSprite_awaitingKey (s : State) (x y : Reg) (bs : List Byte) :
    (s.drawSprite x y bs).awaitingKey = s.awaitingKey := rfl
@[simp] theorem State.drawSprite_fault (s : State) (x y : Reg) (bs : List Byte) :
    (s.drawSprite x y bs).fault = s.fault := rfl
@[simp] theorem State.drawSprite_progLen (s : State) (x y : Reg) (bs : List Byte) :
    (s.drawSprite x y bs).progLen = s.progLen := rfl
@[simp] theorem State.drawSprite_mem (s : State) (x y : Reg) (bs : List Byte) :
    (s.drawSprite x y bs).mem = s.mem := rfl
@[simp] theorem State.drawSprite_keys (s : State) (x y : Reg) (bs : List Byte) :
    (s.drawSprite x y bs).keys = s.keys := rfl
@[simp] theorem State.drawSprite_tick (s : State) (x y : Reg) (bs : List Byte) :
    (s.drawSprite x y bs).tick = s.tick := rfl
@[simp] theorem State.drawSprite_rnd (s : State) (x y : Reg) (bs : List Byte) :
    (s.drawSprite x y bs).rnd = s.rnd := rfl
@[simp] theorem State.drawSprite_cfg (s : State) (x y : Reg) (bs : List Byte) :
    (s.drawSprite x y bs).cfg = s.cfg := rfl
@[simp] theorem State.drawSprite_draws (s : State) (x y : Reg) (bs : List Byte) :
    (s.drawSprite x y bs).draws = s.draws := rfl
@[simp] theorem State.drawSprite_loadOpen (s : State) (x y : Reg) (bs : List Byte) :
    (s.drawSprite x y bs).loadOpen = s.loadOpen := rfl

@[simp] theorem State.drawSprite_dirty (s : State) (x y : Reg) (bs : List Byte) : (s.drawSprite x y bs).dirty = true := rfl

@[simp] theorem State.drawSprite_fb (s : State) (x y : Reg) (bs : List Byte) :
    (s.drawSprite x y bs).fb = (drawRows s.V[x].toNat s.V[y].toNat bs (s.fb, false)).1 := rfl

/-- VF after a draw is the collision flag (R172). -/
theorem State.drawSprite_VF (s : State) (x y : Reg) (bs : List Byte) :
    (s.drawSprite x y bs).V[VF] = flagByte (drawRows s.V[x].toNat s.V[y].toNat bs (s.fb, false)).2 :=
  State.readV_writeV_self _ _ _

/-- A draw changes no register but VF. -/
theorem State.drawSprite_other (s : State) (x y q : Reg) (bs : List Byte) (hq : q ≠ VF) :
    (s.drawSprite x y bs).V[q] = s.V[q] := State.readV_writeV_other _ _ hq

/-! ## The lowest pressed key -/

/-- The scan finds `k` when `k` is pressed and no lower key is (R215). -/
theorem State.firstKey_eq (s : State) (k : Fin 16) (hk : s.keys[k] = true)
    (hlow : ∀ j : Fin 16, j < k → s.keys[j] = false) : s.firstKey = some k.val := by
  rw [State.firstKey, List.findIdx?_eq_some_iff_getElem]
  refine ⟨by simp, by simpa using hk, fun j hj => ?_⟩
  have := hlow ⟨j, by omega⟩ hj
  simpa using this

/-- The scan finds nothing when no key is pressed (R215). -/
theorem State.firstKey_none (s : State) (h : ∀ k : Fin 16, s.keys[k] = false) : s.firstKey = none := by
  rw [State.firstKey, List.findIdx?_eq_none_iff]
  intro b hb
  obtain ⟨i, hi, rfl⟩ := List.getElem_of_mem hb
  have := h ⟨i, by simpa using hi⟩
  simpa using this

/-- A key index of at most 15 names a key (R213). -/
theorem State.key_of_lt (s : State) (b : Byte) (k : Fin 16) (h : b.toNat = k.val) : s.key b = some s.keys[k] := by
  simp [State.key, h]

/-- A key index above 15 names none (R217). -/
theorem State.key_none (s : State) (b : Byte) (h : 15 < b.toNat) : s.key b = none := by
  simp [State.key]
  omega

end Sys2Proof.Machine
end

