-- ==== Sys2Proof/Laws/PerInstr.lean ====
section
/-! SUPPORT. Per instruction: its word has the form of its row of the opcode map, and that row is one of the table's
(spec 30_encoding.md R75). -/

namespace Sys2Proof.Laws.MatchesTableRow

/-- The instruction's encoding, masked, is its row's match, and the row is in the table. -/
def Statement (i : Instr) : Prop := encode i &&& i.maskMatch.1 = i.maskMatch.2 ∧ i.maskMatch ∈ opcodeRows

/-- Every instruction, by its constructor; the lemmas below are its parts. -/
theorem ofInstr (i : Instr) : Statement i := by
  refine ⟨?_, ?_⟩
  · cases i <;> simp [encode, Instr.maskMatch, and_maskA, and_maskXY, and_maskX] <;> decide
  · cases i <;> simp [Instr.maskMatch, opcodeRows]

theorem cls : Statement .cls := ofInstr _
theorem ret : Statement .ret := ofInstr _
theorem jp (nnn : Addr12) : Statement (.jp nnn) := ofInstr _
theorem call (nnn : Addr12) : Statement (.call nnn) := ofInstr _
theorem seByte (x : Reg) (kk : Byte) : Statement (.seByte x kk) := ofInstr _
theorem sneByte (x : Reg) (kk : Byte) : Statement (.sneByte x kk) := ofInstr _
theorem seReg (x : Reg) (y : Reg) : Statement (.seReg x y) := ofInstr _
theorem ldByte (x : Reg) (kk : Byte) : Statement (.ldByte x kk) := ofInstr _
theorem addByte (x : Reg) (kk : Byte) : Statement (.addByte x kk) := ofInstr _
theorem ldReg (x : Reg) (y : Reg) : Statement (.ldReg x y) := ofInstr _
theorem orReg (x : Reg) (y : Reg) : Statement (.orReg x y) := ofInstr _
theorem andReg (x : Reg) (y : Reg) : Statement (.andReg x y) := ofInstr _
theorem xorReg (x : Reg) (y : Reg) : Statement (.xorReg x y) := ofInstr _
theorem addReg (x : Reg) (y : Reg) : Statement (.addReg x y) := ofInstr _
theorem subReg (x : Reg) (y : Reg) : Statement (.subReg x y) := ofInstr _
theorem shr (x : Reg) (y : Reg) : Statement (.shr x y) := ofInstr _
theorem subnReg (x : Reg) (y : Reg) : Statement (.subnReg x y) := ofInstr _
theorem shl (x : Reg) (y : Reg) : Statement (.shl x y) := ofInstr _
theorem sneReg (x : Reg) (y : Reg) : Statement (.sneReg x y) := ofInstr _
theorem ldI (nnn : Addr12) : Statement (.ldI nnn) := ofInstr _
theorem jpV0 (nnn : Addr12) : Statement (.jpV0 nnn) := ofInstr _
theorem rnd (x : Reg) (kk : Byte) : Statement (.rnd x kk) := ofInstr _
theorem drw (x : Reg) (y : Reg) (n : Nibble) : Statement (.drw x y n) := ofInstr _
theorem skp (x : Reg) : Statement (.skp x) := ofInstr _
theorem sknp (x : Reg) : Statement (.sknp x) := ofInstr _
theorem ldVxDt (x : Reg) : Statement (.ldVxDt x) := ofInstr _
theorem ldVxK (x : Reg) : Statement (.ldVxK x) := ofInstr _
theorem ldDtVx (x : Reg) : Statement (.ldDtVx x) := ofInstr _
theorem ldStVx (x : Reg) : Statement (.ldStVx x) := ofInstr _
theorem addI (x : Reg) : Statement (.addI x) := ofInstr _
theorem ldF (x : Reg) : Statement (.ldF x) := ofInstr _
theorem ldB (x : Reg) : Statement (.ldB x) := ofInstr _
theorem storeRegs (x : Reg) : Statement (.storeRegs x) := ofInstr _
theorem loadRegs (x : Reg) : Statement (.loadRegs x) := ofInstr _

end Sys2Proof.Laws.MatchesTableRow
end

