-- ==== Sys2Proof/Laws/Step.lean ====
section
/-! SUPPORT. What `exec` and `step` can do in general, said once: an instruction takes its own effect or enters a fault;
a step is halted, faults before execute, or runs the decoded instruction and commits. -/

namespace Sys2Proof.Machine

/-- `t` is `s` after fault entry at execute. -/
def RaisedFrom (s t : State) : Prop :=
  ∃ kind info, kind ≠ FaultKind.outOfBounds ∧ (s.faultRecord kind info).infoFits ∧ t = s.setFault (s.faultRecord kind info)

/-- `t` is `s` after an instruction's own effect: no fault is recorded, and what no instruction writes is unchanged. -/
def EffectFrom (s t : State) : Prop :=
  t = { s with
    V := t.V, I := t.I, pc := t.pc, sp := t.sp, stack := t.stack, DT := t.DT, ST := t.ST, fb := t.fb,
    dirty := t.dirty, awaitingKey := t.awaitingKey, mem := t.mem }

theorem effectFrom_writeFlagged (s : State) (x y : Reg) (r : Byte → Byte → Byte) (f : Byte → Byte → Bool) :
    EffectFrom s (s.writeFlagged x y r f).advance := by
  rw [State.writeFlagged_eq]
  rfl

theorem storeChecked_effect {s t : State} {base : Nat} {bs : List Byte} (h : s.storeChecked base bs = .next t) :
    RaisedFrom s t ∨ EffectFrom s t := by
  unfold State.storeChecked at h
  split at h
  · rename_i a k _
    exact .inl ⟨.memoryAccess, .access a k, by decide, ⟨a, k, rfl⟩, (Host.Outcome.next.inj h).symm⟩
  · exact .inr (Host.Outcome.next.inj h ▸ rfl)

theorem loadChecked_effect {s t : State} {base n : Nat} {use : List Byte → State}
    (huse : ∀ bs, EffectFrom s (use bs).advance) (h : s.loadChecked base n use = .next t) :
    RaisedFrom s t ∨ EffectFrom s t := by
  rcases State.loadChecked_cases h with rfl | ⟨a, k, rfl⟩
  · exact .inr (huse _)
  · exact .inl ⟨.memoryAccess, .access a k, by decide, ⟨a, k, rfl⟩, rfl⟩

theorem key_eq_none_lt {s : State} {b : Byte} (h : s.key b = none) : 15 < b.toNat := by
  simp only [State.key, Vector.getElem?_eq_none_iff] at h
  omega

/-- Everything an instruction can do: its own effect, or fault entry. -/
theorem exec_cases {i : Instr} {s t : State} (h : exec i s = .next t) : RaisedFrom s t ∨ EffectFrom s t := by
  cases i with
  | ret =>
    simp only [exec, execRet] at h
    split at h
    · rename_i w u hpop
      refine .inr ?_
      rw [← Host.Outcome.next.inj h]
      rcases Nat.eq_zero_or_pos s.sp.val with h0 | hpos
      · rw [State.pop_empty s h0] at hpop
        exact absurd hpop (by simp)
      · rw [State.pop_of_succ s ⟨s.sp.val - 1, by omega⟩ (by simp only; omega)] at hpop
        simp only [Option.some.injEq, Prod.mk.injEq] at hpop
        obtain ⟨-, rfl⟩ := hpop
        rfl
    · rename_i hpop
      refine .inl ⟨_, _, by decide, ?_, (Host.Outcome.next.inj h).symm⟩
      rcases Nat.eq_zero_or_pos s.sp.val with h0 | hpos
      · simp only [State.faultRecord, FaultRecord.infoFits, h0]
      · rw [State.pop_of_succ s ⟨s.sp.val - 1, by omega⟩ (by simp only; omega)] at hpop
        exact absurd hpop (by simp)
  | call nnn =>
    simp only [exec, execCall] at h
    by_cases hlt : s.sp.val < 16
    · rw [State.push_of_lt s _ hlt] at h
      exact .inr (Host.Outcome.next.inj h ▸ rfl)
    · have hfull : s.sp.val = 16 := by omega
      rw [State.push_full s _ hfull] at h
      refine .inl ⟨_, _, by decide, ?_, (Host.Outcome.next.inj h).symm⟩
      simp only [State.faultRecord, FaultRecord.infoFits, hfull]
  | jpV0 nnn =>
    simp only [exec, execJpV0] at h
    split at h
    · exact .inr (Host.Outcome.next.inj h ▸ rfl)
    · exact .inl ⟨.unknownOpcode, .empty, by decide, rfl, (Host.Outcome.next.inj h).symm⟩
  | skp x =>
    simp only [exec, execSkp] at h
    split at h
    · exact .inr (Host.Outcome.next.inj h ▸ rfl)
    · rename_i hk
      exact .inl ⟨.keyIndex, .key (s.readV x), by decide, ⟨_, rfl, key_eq_none_lt hk⟩, (Host.Outcome.next.inj h).symm⟩
  | sknp x =>
    simp only [exec, execSknp] at h
    split at h
    · exact .inr (Host.Outcome.next.inj h ▸ rfl)
    · rename_i hk
      exact .inl ⟨.keyIndex, .key (s.readV x), by decide, ⟨_, rfl, key_eq_none_lt hk⟩, (Host.Outcome.next.inj h).symm⟩
  | ldVxK x =>
    simp only [exec, execLdVxK] at h
    split at h
    · exact .inr (Host.Outcome.next.inj h ▸ rfl)
    · exact .inr (Host.Outcome.next.inj h ▸ rfl)
  | drw x y n => exact loadChecked_effect (use := s.drawSprite x y) (fun _ => rfl) h
  | loadRegs x => exact loadChecked_effect (use := s.writeRegs) (fun _ => rfl) h
  | ldB x => exact storeChecked_effect h
  | storeRegs x => exact storeChecked_effect h
  | addReg x y => exact .inr (Host.Outcome.next.inj h ▸ effectFrom_writeFlagged s x y _ _)
  | subReg x y => exact .inr (Host.Outcome.next.inj h ▸ effectFrom_writeFlagged s x y _ _)
  | shr x y => exact .inr (Host.Outcome.next.inj h ▸ effectFrom_writeFlagged s x y _ _)
  | subnReg x y => exact .inr (Host.Outcome.next.inj h ▸ effectFrom_writeFlagged s x y _ _)
  | shl x y => exact .inr (Host.Outcome.next.inj h ▸ effectFrom_writeFlagged s x y _ _)
  | _ => exact .inr (Host.Outcome.next.inj h ▸ rfl)

theorem EffectFrom.fault {s t : State} (h : EffectFrom s t) : t.fault = s.fault := by
  unfold EffectFrom at h
  rw [h]

/-- A fault recorded by an instruction, from a state with none, is a fault it entered. -/
theorem exec_raised {i : Instr} {s t : State} {r : FaultRecord} (h : exec i s = .next t) (hs : s.fault = none)
    (ht : t.fault = some r) : RaisedFrom s t := by
  rcases exec_cases h with hr | he
  · exact hr
  · rw [he.fault, hs] at ht
    exact absurd ht (by simp)

/-- An instruction that records no fault takes its own effect. -/
theorem exec_effect {i : Instr} {s t : State} (h : exec i s = .next t) (ht : t.fault = none) : EffectFrom s t := by
  rcases exec_cases h with ⟨k, info, -, -, rfl⟩ | he
  · exact absurd ht (by simp)
  · exact he

/-! ## The step -/

/-- The bounds check as numbers (R102). -/
theorem inBounds_iff (pc : Word) (l : Fin 3585) :
    inBounds pc l = true ↔ 512 ≤ pc.toNat ∧ pc.toNat + 1 ≤ 511 + l.val := by
  simp [inBounds]

/-- The clock bookkeeping writes the two timers and nothing else (R109). -/
theorem State.clock_eq (s : State) : s.clock = { s with
    DT := if s.tick then decrementTimer s.DT else s.DT
    ST := if s.tick then decrementTimer s.ST else s.ST } := rfl

/-- A timer goes down by one, never below 0 (R239). -/
theorem toNat_decrementTimer (b : Byte) : (decrementTimer b).toNat = b.toNat - 1 := by
  unfold decrementTimer
  split
  · rename_i h
    rw [h]
    rfl
  · rename_i h
    have h0 : b.toNat ≠ 0 := fun e => h (BitVec.eq_of_toNat_eq e)
    have := b.isLt
    rw [BitVec.toNat_sub]
    simp only [BitVec.ofNat_eq_ofNat, BitVec.toNat_ofNat]
    omega

/-- The end of a step that raised nothing. -/
theorem State.commit_running {s : State} (h : s.fault = none) : s.commit = s.clock.closeLoad.nextInputs := by
  unfold State.commit
  rw [h]

/-- The end of a step that raised a fault. -/
theorem State.commit_raised {s : State} {r : FaultRecord} (h : s.fault = some r) : s.commit = s := by
  unfold State.commit
  rw [h]

/-- The step of a halted core (R101). -/
theorem step_halted {s : State} {r : FaultRecord} (h : s.fault = some r) : step s = .fault (.halted r) := by
  simp only [step, State.fetchDecode, h]

/-- The step whose `pc` is outside the image (R102). -/
theorem step_outOfBounds {s : State} (hf : s.fault = none) (hb : inBounds s.pc s.progLen = false) :
    step s = s.raise .outOfBounds .empty := by
  simp [step, State.fetchDecode, hf, hb]

/-- The step that fetches an illegal word (R104). -/
theorem step_unknownOpcode {s : State} {e : DecodeError} (hf : s.fault = none) (hb : inBounds s.pc s.progLen = true)
    (hd : decode s.cfg.bnnnMode s.fetchWord = .error e) : step s = s.raise .unknownOpcode .empty := by
  simp [step, State.fetchDecode, hf, hb, hd]

/-- The step that runs an instruction (R100). -/
theorem step_run {s t : State} {i : Instr} (hf : s.fault = none) (hb : inBounds s.pc s.progLen = true)
    (hd : decode s.cfg.bnnnMode s.fetchWord = .ok i) (hx : exec i s = .next t) : step s = .next t.commit := by
  simp [step, State.fetchDecode, hf, hb, hd, hx]

/-- Everything a step with a next state can be. -/
theorem step_cases {s u : State} (h : step s = .next u) : s.fault = none ∧
    ((inBounds s.pc s.progLen = false ∧ u = s.setFault (s.faultRecord .outOfBounds .empty)) ∨
     (inBounds s.pc s.progLen = true ∧ (∃ e, decode s.cfg.bnnnMode s.fetchWord = .error e) ∧
        u = s.setFault (s.faultRecord .unknownOpcode .empty)) ∨
     (inBounds s.pc s.progLen = true ∧ ∃ i t, decode s.cfg.bnnnMode s.fetchWord = .ok i ∧ exec i s = .next t ∧
        ((RaisedFrom s t ∧ u = t) ∨ (EffectFrom s t ∧ u = t.clock.closeLoad.nextInputs)))) := by
  cases hf : s.fault with
  | some r =>
    rw [step_halted hf] at h
    exact absurd h (by simp)
  | none =>
    refine ⟨rfl, ?_⟩
    cases hb : inBounds s.pc s.progLen with
    | false =>
      rw [step_outOfBounds hf hb] at h
      exact .inl ⟨rfl, (Host.Outcome.next.inj h).symm⟩
    | true =>
      cases hd : decode s.cfg.bnnnMode s.fetchWord with
      | error e =>
        rw [step_unknownOpcode hf hb hd] at h
        exact .inr (.inl ⟨rfl, ⟨e, rfl⟩, (Host.Outcome.next.inj h).symm⟩)
      | ok i =>
        cases hx : exec i s with
        | next t =>
          rw [step_run hf hb hd hx] at h
          have hu := (Host.Outcome.next.inj h).symm
          refine .inr (.inr ⟨rfl, i, t, rfl, hx, ?_⟩)
          rcases exec_cases hx with hr | he
          · obtain ⟨k, info, -, -, rfl⟩ := id hr
            exact .inl ⟨hr, hu⟩
          · refine .inr ⟨he, ?_⟩
            rw [hu, State.commit, he.fault, hf]
        | fault r =>
          simp [step, State.fetchDecode, hf, hb, hd, hx] at h
        | refused r =>
          simp [step, State.fetchDecode, hf, hb, hd, hx] at h

/-! ## Placing a word for the next fetch -/

/-- The word placed by `placeWord` is the word the next step fetches, inside the image and with no fault recorded. -/
theorem placeWord_fetches (s : State) (w : Word) :
    (s.placeWord w).fetchWord = w ∧ inBounds (s.placeWord w).pc (s.placeWord w).progLen = true ∧
      (s.placeWord w).fault = none := by
  have hpc : 512 ≤ (fetchableAt s.pc).toNat ∧ (fetchableAt s.pc).toNat ≤ 4094 := by
    unfold fetchableAt
    split
    · assumption
    · decide
  have hfont : (s.placeWord w).cfg.font = s.cfg.font := by
    simp only [State.placeWord]
    split <;> rfl
  refine ⟨?_, ?_, rfl⟩
  · have h0 := Memory.read_writeBytes_inside s.cfg.font [highByte w, lowByte w] s.mem (fetchableAt s.pc).toNat 0 (by simp)
    have h1 := Memory.read_writeBytes_inside s.cfg.font [highByte w, lowByte w] s.mem (fetchableAt s.pc).toNat 1 (by simp)
    simp only [Nat.add_zero, List.getElem_cons_zero, List.getElem_cons_succ] at h0 h1
    simp only [State.fetchWord, State.readByte, hfont]
    show composeWord (Memory.read s.cfg.font _ (fetchableAt s.pc).toNat) (Memory.read s.cfg.font _ _) = w
    simp only [State.placeWord] at *
    rw [h0, h1, composeWord_bytes]
  · rw [inBounds_iff]
    refine ⟨hpc.1, ?_⟩
    have hl : (coverLength s.progLen (fetchableAt s.pc)).val = max s.progLen.val (min ((fetchableAt s.pc).toNat - 510) 3584) := by
      have := s.progLen.isLt
      simp only [coverLength, Fin.ofNat_eq_cast, Fin.val_natCast]
      omega
    show (fetchableAt s.pc).toNat + 1 ≤ 511 + (coverLength s.progLen (fetchableAt s.pc)).val
    rw [hl]
    omega

end Sys2Proof.Machine
end

