-- ==== Sys2Proof/Tests/Slice0.lean ====
section
/-! SUPPORT. Small tests, each with its expected result from the spec (the vector of 95_test_vectors.md or the rule is
named), and a witness that the hypotheses of each statement can be met. -/

namespace Sys2Proof.Tests

set_option Elab.async false

open Sys2Proof.Machine

/-! ## Helpers -/

/-- The next state of an outcome, if it is one. -/
def got {φ ρ : Type} : Host.Outcome State φ ρ → Option State
  | .next t => some t
  | .fault _ => none
  | .refused _ => none

/-- `got` finds exactly the next state. -/
theorem got_eq {φ ρ : Type} (o : Host.Outcome State φ ρ) (t : State) : got o = some t ↔ o = .next t := by
  cases o <;> simp [got]

/-- What a machine that stops stops with. -/
def stop : Host.Outcome State Fault Refusal → Option Fault
  | .next _ => none
  | .fault r => some r
  | .refused _ => none

/-- `s` with the registers `l`. -/
def withV (s : State) (l : List (Reg × Byte)) : State := l.foldl (fun s c => s.writeV c.1 c.2) s

/-- The machine just created, with the registers `l` and the index register `i`. -/
def start (l : List (Reg × Byte)) (i : Word := 0) : State := { withV State.reset l with I := i }

/-- `s` with the bytes `bs` in memory at `a`. -/
def withBytes (s : State) (a : Nat) (bs : List Byte) : State := s.writeBytes a bs

/-- `s` with the parameter `VF_DEST_ORDER`. -/
def withOrder (s : State) (o : VfDestOrder) : State := { s with cfg := { s.cfg with vfDestOrder := o } }

/-- `s` with the keys `ks` pressed. -/
def pressing (s : State) (ks : List Reg) : State := { s with keys := Vector.ofFn fun k => decide (k ∈ ks) }

/-- One step on the word `w`: what `f` sees of the next state. -/
def see {α : Type} (s : State) (w : Nat) (f : State → α) : Option α := (got (step (s.withFetchWord 16 w))).map f

/-- One step on the word `w`: the fault recorded after it. -/
def raised (s : State) (w : Nat) : Option FaultRecord := (see s w State.stepResult).join

/-- What `f` sees of the next state of `exec i s`. -/
def seeExec {α : Type} (i : Instr) (s : State) (f : State → α) : Option α := (got (exec i s)).map f

/-- The machine just created with `BNNN_MODE` the default, an image of the word `w` and `pc` at it. -/
def at200 (s : State) (w : Word) : State :=
  { withBytes s 0x200 [highByte w, lowByte w] with progLen := 2, loadOpen := false }

/-- A record, to halt a machine with. -/
def someRecord : FaultRecord := ⟨.stackUnderflow, 0x200, some 0x00EE, .depth 0⟩

/-- The steps of the words `ws`, one after another. -/
def seq (s : State) : List Nat → Option State
  | [] => some s
  | w :: ws => (got (step (s.withFetchWord 16 w))).bind fun t => seq t ws

/-- The pixels that are on, row by row. -/
def lit (s : State) : List (Nat × Nat) :=
  (List.range 32).flatMap fun y => (List.range 64).filterMap fun x =>
    if pixelAt s (Fin.ofNat 64 x) (Fin.ofNat 32 y) then some (x, y) else none

/-! ## WellFormed: the one check refuses the ill-formed term -/

theorem test_wellFormed_refuses_jpV0 : Instr.wellFormed .fault (.jpV0 0x300) = false := by decide +kernel
theorem test_wellFormed_jpV0_where_it_exists : Instr.wellFormed .jumpV0 (.jpV0 0x300) = true := by decide +kernel

/-! ## Decoding: every constructor by a word written out from R71, R72 and R75 -/

theorem test_decode_0 :
    decode .fault (0b0000#4 ++ 0b0000#4 ++ 0b1110#4 ++ 0b0000#4) = .ok .cls ∧
    decode .fault (0b0000#4 ++ 0b0000#4 ++ 0b1110#4 ++ 0b1110#4) = .ok .ret := by decide +kernel

theorem test_decode_jumps :
    decode .fault (0b0001#4 ++ 0b1010#4 ++ 0b0101#4 ++ 0b0011#4) = .ok (.jp 0xA53) ∧
    decode .fault (0b0010#4 ++ 0b1000#4 ++ 0b0110#4 ++ 0b0001#4) = .ok (.call 0x861) ∧
    decode .jumpV0 (0b1011#4 ++ 0b0011#4 ++ 0b0000#4 ++ 0b1001#4) = .ok (.jpV0 0x309) := by decide +kernel

theorem test_decode_skips :
    decode .fault (0b0011#4 ++ 0b0111#4 ++ 0b1011#4 ++ 0b0100#4) = .ok (.seByte 7 0xB4) ∧
    decode .fault (0b0100#4 ++ 0b1110#4 ++ 0b0010#4 ++ 0b1101#4) = .ok (.sneByte 14 0x2D) ∧
    decode .fault (0b0101#4 ++ 0b0011#4 ++ 0b1100#4 ++ 0b0000#4) = .ok (.seReg 3 12) ∧
    decode .fault (0b1001#4 ++ 0b0110#4 ++ 0b0001#4 ++ 0b0000#4) = .ok (.sneReg 6 1) := by decide +kernel

theorem test_decode_immediates :
    decode .fault (0b0110#4 ++ 0b1010#4 ++ 0b0100#4 ++ 0b0010#4) = .ok (.ldByte 10 0x42) ∧
    decode .fault (0b0111#4 ++ 0b0101#4 ++ 0b1111#4 ++ 0b1000#4) = .ok (.addByte 5 0xF8) ∧
    decode .fault (0b1100#4 ++ 0b1001#4 ++ 0b1011#4 ++ 0b1110#4) = .ok (.rnd 9 0xBE) := by decide +kernel

theorem test_decode_8_moves :
    decode .fault (0b1000#4 ++ 0b0001#4 ++ 0b1101#4 ++ 0b0000#4) = .ok (.ldReg 1 13) ∧
    decode .fault (0b1000#4 ++ 0b0010#4 ++ 0b1100#4 ++ 0b0001#4) = .ok (.orReg 2 12) ∧
    decode .fault (0b1000#4 ++ 0b0011#4 ++ 0b1011#4 ++ 0b0010#4) = .ok (.andReg 3 11) ∧
    decode .fault (0b1000#4 ++ 0b0100#4 ++ 0b1010#4 ++ 0b0011#4) = .ok (.xorReg 4 10) := by decide +kernel

theorem test_decode_8_flags :
    decode .fault (0b1000#4 ++ 0b0101#4 ++ 0b1001#4 ++ 0b0100#4) = .ok (.addReg 5 9) ∧
    decode .fault (0b1000#4 ++ 0b0110#4 ++ 0b1000#4 ++ 0b0101#4) = .ok (.subReg 6 8) ∧
    decode .fault (0b1000#4 ++ 0b0111#4 ++ 0b1110#4 ++ 0b0110#4) = .ok (.shr 7 14) ∧
    decode .fault (0b1000#4 ++ 0b1000#4 ++ 0b0110#4 ++ 0b0111#4) = .ok (.subnReg 8 6) ∧
    decode .fault (0b1000#4 ++ 0b1001#4 ++ 0b0101#4 ++ 0b1110#4) = .ok (.shl 9 5) := by decide +kernel

theorem test_decode_A_D_E :
    decode .fault (0b1010#4 ++ 0b0001#4 ++ 0b0010#4 ++ 0b0011#4) = .ok (.ldI 0x123) ∧
    decode .fault (0b1101#4 ++ 0b0111#4 ++ 0b0010#4 ++ 0b1111#4) = .ok (.drw 7 2 15) ∧
    decode .fault (0b1110#4 ++ 0b0100#4 ++ 0b1001#4 ++ 0b1110#4) = .ok (.skp 4) ∧
    decode .fault (0b1110#4 ++ 0b1011#4 ++ 0b1010#4 ++ 0b0001#4) = .ok (.sknp 11) := by decide +kernel

theorem test_decode_F_timers_keys :
    decode .fault (0b1111#4 ++ 0b0001#4 ++ 0b0000#4 ++ 0b0111#4) = .ok (.ldVxDt 1) ∧
    decode .fault (0b1111#4 ++ 0b0010#4 ++ 0b0000#4 ++ 0b1010#4) = .ok (.ldVxK 2) ∧
    decode .fault (0b1111#4 ++ 0b0011#4 ++ 0b0001#4 ++ 0b0101#4) = .ok (.ldDtVx 3) ∧
    decode .fault (0b1111#4 ++ 0b0100#4 ++ 0b0001#4 ++ 0b1000#4) = .ok (.ldStVx 4) := by decide +kernel

theorem test_decode_F_index_memory :
    decode .fault (0b1111#4 ++ 0b0101#4 ++ 0b0001#4 ++ 0b1110#4) = .ok (.addI 5) ∧
    decode .fault (0b1111#4 ++ 0b0110#4 ++ 0b0010#4 ++ 0b1001#4) = .ok (.ldF 6) ∧
    decode .fault (0b1111#4 ++ 0b0111#4 ++ 0b0011#4 ++ 0b0011#4) = .ok (.ldB 7) ∧
    decode .fault (0b1111#4 ++ 0b1000#4 ++ 0b0101#4 ++ 0b0101#4) = .ok (.storeRegs 8) ∧
    decode .fault (0b1111#4 ++ 0b1001#4 ++ 0b0110#4 ++ 0b0101#4) = .ok (.loadRegs 9) := by decide +kernel

/-- R77, R78, the words of vector S9 and S10. -/
theorem test_decode_illegal :
    ([0x0123, 0x00E1, 0x00FF, 0x5121, 0x912F, 0x8008, 0x800F, 0xE000, 0xE09F, 0xF000, 0xF0FF, 0xF056, 0xB300].map
      (decode .fault)) =
    [0x0123, 0x00E1, 0x00FF, 0x5121, 0x912F, 0x8008, 0x800F, 0xE000, 0xE09F, 0xF000, 0xF0FF, 0xF056, 0xB300].map
      fun w => .error (.unknownOpcode w) := by decide +kernel

/-- R54: the byte at the lower address is the high byte; R70: one byte is no instruction. -/
theorem test_decodeBytes :
    decodeBytes .fault [0x6A, 0x42, 0x99] = .ok (.ldByte 10 0x42, [0x99]) ∧ decodeBytes .fault [0x6A] = .error .truncated := by
  decide +kernel

theorem test_decodeTableWord :
    decodeTableWord 16 0xD015 = some (.drw 0 1 5) ∧ decodeTableWord 16 0xB300 = some (.jpV0 0x300) ∧
    decodeTableWord 16 0x5001 = none := by decide +kernel

/-! ## Control flow (vectors J, W) -/

theorem test_jp_J1_J2 : see (start []) 0x1234 State.pc = some 0x234 ∧ see (start []) 0x1203 State.pc = some 0x203 := by
  decide +kernel

theorem test_call_J5 :
    see { start [] with sp := 15 } 0x2300 (fun t => (t.pc, t.sp, t.stack[15])) = some (0x300, 16, 0x200) := by decide +kernel

theorem test_call_J6 :
    raised { start [] with sp := 16 } 0x2300 = some ⟨.stackOverflow, 0x200, some 0x2300, .depth 16⟩ := by decide +kernel

theorem test_ret_W9 :
    see { start [] with sp := 1, stack := (Vector.replicate 16 0).set 0 600 } 0x00EE
      (fun t => (t.pc, t.sp, t.stack[0])) = some (602, 0, 600) := by decide +kernel

theorem test_ret_J7 : raised (start []) 0x00EE = some ⟨.stackUnderflow, 0x200, some 0x00EE, .depth 0⟩ := by decide +kernel

theorem test_call_ret_W5 :
    (seq (start []) [0x2204, 0x00EE]).map (fun t => (t.pc, t.sp, t.stack[0])) = some (0x202, 0, 0x200) := by decide +kernel

theorem test_seByte_J9_J10 :
    see (start [(1, 0x42)]) 0x3142 State.pc = some 0x204 ∧ see (start [(1, 0x42)]) 0x3143 State.pc = some 0x202 := by decide +kernel

theorem test_sneByte_J11_J12 :
    see (start [(1, 0x42)]) 0x4142 State.pc = some 0x202 ∧ see (start [(1, 0x42)]) 0x4143 State.pc = some 0x204 := by decide +kernel

theorem test_seReg_J13_J14 :
    see (start [(1, 7), (2, 7)]) 0x5120 State.pc = some 0x204 ∧
    see (start [(1, 7), (2, 8)]) 0x5120 State.pc = some 0x202 := by decide +kernel

theorem test_sneReg_J15_J16 :
    see (start [(1, 7), (2, 7)]) 0x9120 State.pc = some 0x202 ∧
    see (start [(1, 7), (2, 8)]) 0x9120 State.pc = some 0x204 := by decide +kernel

theorem test_jpV0_J19_J20 :
    see (start [(0, 0x04)]) 0xB300 State.pc = some 0x304 ∧ see (start [(0, 0xFF)]) 0xBFFF State.pc = some 0x10FE := by decide +kernel

/-! ## ALU (vectors A) -/

theorem test_ldByte_A1_A2 :
    see (start []) 0x6A42 (fun t => (t.V[10], t.pc)) = some (0x42, 0x202) ∧
    see (start [(15, 0x33)]) 0x6F00 (fun t => t.V[15]) = some 0 := by decide +kernel

theorem test_addByte_A3_A4 :
    see (start [(3, 0xFF), (15, 0x77)]) 0x7302 (fun t => (t.V[3], t.V[15])) = some (0x01, 0x77) ∧
    see (start [(15, 0x10)]) 0x7F05 (fun t => t.V[15]) = some 0x15 := by decide +kernel

theorem test_ldReg_A6 : see (start [(1, 0x12), (2, 0x34)]) 0x8120 (fun t => (t.V[1], t.V[2])) = some (0x34, 0x34) := by decide +kernel

theorem test_orReg_A7 :
    see (start [(1, 0xF0), (2, 0x0F), (15, 0x55)]) 0x8121 (fun t => (t.V[1], t.V[15])) = some (0xFF, 0x55) := by decide +kernel

theorem test_andReg_A8 :
    see (start [(1, 0xF0), (2, 0x3C), (15, 0x55)]) 0x8122 (fun t => (t.V[1], t.V[15])) = some (0x30, 0x55) := by decide +kernel

theorem test_xorReg_A9 :
    see (start [(1, 0xF0), (2, 0x3C), (15, 0x55)]) 0x8123 (fun t => (t.V[1], t.V[15])) = some (0xCC, 0x55) := by decide +kernel

theorem test_addReg_A11_A12 :
    see (start [(1, 0xFF), (2, 0x01)]) 0x8124 (fun t => (t.V[1], t.V[15])) = some (0x00, 1) ∧
    see (start [(1, 0x80), (2, 0x7F)]) 0x8124 (fun t => (t.V[1], t.V[15])) = some (0xFF, 0) := by decide +kernel

theorem test_subReg_A15_A17 :
    see (start [(1, 5), (2, 3)]) 0x8125 (fun t => (t.V[1], t.V[15])) = some (2, 1) ∧
    see (start [(1, 3), (2, 5)]) 0x8125 (fun t => (t.V[1], t.V[15])) = some (0xFE, 0) ∧
    see (start [(1, 5), (2, 5)]) 0x8125 (fun t => (t.V[1], t.V[15])) = some (0, 0) := by decide +kernel

theorem test_shr_A19_A21 :
    see (start [(1, 0x81)]) 0x8106 (fun t => (t.V[1], t.V[15])) = some (0x40, 1) ∧
    see (start [(1, 0x04), (5, 0xFF)]) 0x8156 (fun t => (t.V[1], t.V[15])) = some (0x02, 0) := by decide +kernel

theorem test_subnReg_A23_A25 :
    see (start [(1, 3), (2, 5)]) 0x8127 (fun t => (t.V[1], t.V[15])) = some (2, 1) ∧
    see (start [(1, 5), (2, 3)]) 0x8127 (fun t => (t.V[1], t.V[15])) = some (0xFE, 0) ∧
    see (start [(1, 5), (2, 5)]) 0x8127 (fun t => (t.V[1], t.V[15])) = some (0, 0) := by decide +kernel

theorem test_shl_A26_A27 :
    see (start [(1, 0x81)]) 0x810E (fun t => (t.V[1], t.V[15])) = some (0x02, 1) ∧
    see (start [(1, 0x40)]) 0x810E (fun t => (t.V[1], t.V[15])) = some (0x80, 0) := by decide +kernel

theorem test_rnd_W10_A28 :
    see { start [] with rnd := 0x5A } 0xC0BE (fun t => t.V[0]) = some 0x1A ∧
    see { start [(3, 9)] with rnd := 0xFF } 0xC300 (fun t => t.V[3]) = some 0 := by decide +kernel

/-- VF as destination or operand, vectors A30 to A32 and A35: one step, what ends in the register named. -/
theorem test_vfDestOrder_add_sub :
    ([VfDestOrder.flagLast, .resultLast, .docSequential].map fun o =>
      (see (withOrder (start [(15, 0xFF), (1, 0x01)]) o) 0x8F14 (fun t => t.V[15]),
       see (withOrder (start [(1, 0xFF), (15, 0x02)]) o) 0x81F4 (fun t => (t.V[1], t.V[15])),
       see (withOrder (start [(15, 0x10), (1, 0x01)]) o) 0x8F15 (fun t => t.V[15]),
       see (withOrder (start [(1, 0x03), (15, 0x01)]) o) 0x81F7 (fun t => (t.V[1], t.V[15])))) =
      [(some 0x01, some (0x01, 1), some 0x01, some (0xFE, 0)), (some 0x00, some (0x01, 1), some 0x0F, some (0xFE, 0)),
        (some 0x02, some (0x00, 1), some 0x00, some (0xFD, 0))] := by decide +kernel

/-- Vectors A33 and A34. -/
theorem test_vfDestOrder_shifts :
    ([VfDestOrder.flagLast, .resultLast, .docSequential].map fun o =>
      (see (withOrder (start [(15, 0x05)]) o) 0x8F06 (fun t => t.V[15]),
       see (withOrder (start [(15, 0x80)]) o) 0x8F0E (fun t => t.V[15]))) =
      [(some 0x01, some 0x01), (some 0x02, some 0x00), (some 0x00, some 0x02)] := by decide +kernel

/-! ## Display (vectors D) -/

theorem test_cls_W8 :
    see { start [(15, 7)] with fb := Vector.replicate 32 (BitVec.allOnes 64) } 0x00E0
      (fun t => (lit t, t.dirty, t.pc, t.V[15])) = some ([], true, 0x202, 7) := by decide +kernel

theorem test_drw_D3 :
    see (start [(15, 7)]) 0xD015 (fun t => (lit t, t.V[15], t.dirty)) =
      some ([(0, 0), (1, 0), (2, 0), (3, 0), (0, 1), (3, 1), (0, 2), (3, 2), (0, 3), (3, 3), (0, 4), (1, 4), (2, 4), (3, 4)],
        0, true) := by decide +kernel

theorem test_drw_D6 :
    see (start [(0, 0x3C), (1, 0x1E)]) 0xD015 (fun t => (lit t, t.V[15])) =
      some ([(60, 0), (63, 0), (60, 1), (63, 1), (60, 2), (61, 2), (62, 2), (63, 2), (60, 30), (61, 30), (62, 30), (63, 30),
        (60, 31), (63, 31)], 0) := by decide +kernel

theorem test_drw_D7_D8 :
    see (start [(0, 0x3E)]) 0xD011 lit = some [(0, 0), (1, 0), (62, 0), (63, 0)] ∧
    see (start [(0, 0x46), (1, 0x23)]) 0xD011 lit = some [(6, 3), (7, 3), (8, 3), (9, 3)] := by decide +kernel

theorem test_drw_D9_D12 :
    see (start [(15, 1)]) 0xD010 (fun t => (lit t, t.V[15], t.dirty)) = some ([], 0, true) ∧
    see (start [(15, 5)]) 0xDF11 (fun t => (lit t, t.V[15])) = some ([(5, 0), (6, 0), (7, 0), (8, 0)], 0) := by decide +kernel

theorem test_drw_D10_D11 :
    raised (start [] 0xFFE) 0xD013 = some ⟨.memoryAccess, 0x200, some 0xD013, .access 0x1000 .read⟩ ∧
    see (withBytes (start [] 0xFFE) 0xFFE [0x80, 0x80]) 0xD012 lit = some [(0, 0), (0, 1)] := by decide +kernel

theorem test_drw_twice_D4 :
    (seq (start []) [0xD015, 0xD015]).map (fun t => (lit t, t.V[15], t.dirty)) = some ([], 1, true) := by decide +kernel

theorem test_ldF_D14_D16 :
    see (start [(4, 0x0A)]) 0xF429 State.I = some 0x032 ∧ see (start [(4, 0xFF)]) 0xF429 State.I = some 0x4FB := by decide +kernel

/-! ## Index register and memory (vectors M) -/

theorem test_ldI_M1 : see (start []) 0xA123 (fun t => (t.I, t.pc)) = some (0x123, 0x202) := by decide +kernel

theorem test_addI_M3_M4 :
    see (start [(0, 2), (15, 0x44)] 0xFFFF) 0xF01E (fun t => (t.I, t.V[15])) = some (0x0001, 0x44) ∧
    see (start [(0, 1)] 0x0FFF) 0xF01E State.I = some 0x1000 := by decide +kernel

theorem test_ldB_M5_M11 :
    see (start [(0, 0xFE)] 0x300) 0xF033 (fun t => (t.readBytes 0x2FF 5, t.I)) = some ([0, 2, 5, 4, 0], 0x300) ∧
    see (start [(0, 9)] 0xFFD) 0xF033 (fun t => t.readBytes 0xFFD 3) = some [0, 0, 9] := by decide +kernel

theorem test_ldB_M9_M10 :
    raised (start [(0, 9)] 0x4F) 0xF033 = some ⟨.memoryAccess, 0x200, some 0xF033, .access 0x4F .fontWrite⟩ ∧
    raised (start [(0, 9)] 0xFFE) 0xF033 = some ⟨.memoryAccess, 0x200, some 0xF033, .access 0x1000 .write⟩ := by decide +kernel

theorem test_storeRegs_M12_M13 :
    see (start [(0, 1), (1, 2), (2, 3), (3, 4)] 0x400) 0xF255 (fun t => (t.readBytes 0x400 4, t.I)) =
      some ([1, 2, 3, 0], 0x400) ∧
    see (start [(0, 0xAB)] 0x50) 0xF055 (fun t => t.readByte 0x50) = some 0xAB := by decide +kernel

theorem test_storeRegs_M14_M16 :
    raised (start [] 0x4F) 0xF055 = some ⟨.memoryAccess, 0x200, some 0xF055, .access 0x4F .fontWrite⟩ ∧
    raised (start [] 0xFF1) 0xFF55 = some ⟨.memoryAccess, 0x200, some 0xFF55, .access 0x1000 .write⟩ := by decide +kernel

theorem test_loadRegs_M17_M18 :
    see (withBytes (start [(3, 7)] 0x300) 0x300 [2, 5, 4]) 0xF265 (fun t => (t.V.toList.take 4, t.I)) =
      some ([2, 5, 4, 7], 0x300) ∧
    see (start []) 0xF465 (fun t => t.V.toList.take 6) = some [0xF0, 0x90, 0x90, 0x90, 0xF0, 0] := by decide +kernel

theorem test_loadRegs_M20 :
    raised (start [(0, 9)] 0xFF1) 0xFF65 = some ⟨.memoryAccess, 0x200, some 0xFF65, .access 0x1000 .read⟩ ∧
    see (start [(0, 9)] 0xFF1) 0xFF65 (fun t => t.V[0]) = some 9 := by decide +kernel

/-! ## Timers and keys (vectors K) -/

theorem test_ldVxDt_K1_K6 :
    see { start [] with DT := 0x30 } 0xF507 (fun t => t.V[5]) = some 0x30 ∧
    see { start [] with DT := 7, tick := true } 0xF007 (fun t => (t.V[0], t.DT)) = some (7, 6) := by decide +kernel

theorem test_ldDtVx_K2_K3 :
    see (start [(5, 0x3C)]) 0xF515 State.DT = some 0x3C ∧
    see { start [(5, 0x3C)] with tick := true } 0xF515 State.DT = some 0x3B := by decide +kernel

theorem test_ldStVx_K4 : see { start [(5, 2)] with tick := true } 0xF518 State.ST = some 1 := by decide +kernel

theorem test_tick_K5 :
    see { start [] with ST := 1, tick := true } 0x1200 (fun t => (t.DT, t.ST, t.pc)) = some (0, 0, 0x200) := by decide +kernel

theorem test_skp_K7_K8 :
    see (pressing (start [(5, 10)]) [10]) 0xE59E State.pc = some 0x204 ∧
    see (start [(5, 10)]) 0xE59E State.pc = some 0x202 := by decide +kernel

theorem test_sknp_K9_K10 :
    see (start [(5, 10)]) 0xE5A1 State.pc = some 0x204 ∧
    see (pressing (start [(5, 10)]) [10]) 0xE5A1 State.pc = some 0x202 := by decide +kernel

theorem test_keyIndex_K11_K12 :
    raised (start [(5, 16)]) 0xE59E = some ⟨.keyIndex, 0x200, some 0xE59E, .key 16⟩ ∧
    raised (start [(5, 255)]) 0xE5A1 = some ⟨.keyIndex, 0x200, some 0xE5A1, .key 255⟩ := by decide +kernel

theorem test_ldVxK_K14_K16 :
    see (pressing { start [] with awaitingKey := true } [7, 9]) 0xF30A (fun t => (t.V[3], t.pc, t.awaitingKey)) =
      some (7, 0x202, false) ∧
    see { start [(3, 1)] with DT := 5, tick := true } 0xF30A (fun t => (t.V[3], t.pc, t.awaitingKey, t.DT)) =
      some (1, 0x200, true, 4) := by decide +kernel

/-! ## The step cycle and the host (vectors S) -/

/-- S1: from reset, with nothing loaded. -/
theorem test_step_S1 :
    (got (step State.reset)).map (fun t => (t.fault, t.pc)) =
      some (some ⟨.outOfBounds, 0x200, none, .empty⟩, 0x200) := by decide +kernel

/-- S7: a faulting step does not tick. -/
theorem test_step_S7 :
    see { start [(0, 9)] 0x4F with DT := 5, tick := true } 0xF033 (fun t => (t.DT, t.halted)) = some (5, true) := by decide +kernel

/-- S2 and S3: the second byte of a word must lie in the image too. -/
theorem test_bounds_S2_S3 :
    ((got (State.reset.load [0x60])).bind fun t => (got (step t)).map State.stepResult) =
      some (some ⟨.outOfBounds, 0x200, none, .empty⟩) ∧
    ((got (State.reset.load [0x60, 0x05, 0x61, 0x07])).bind fun t =>
      (got (step { t with pc := 0x202 })).map (fun u => (u.V[1], u.fault))) = some (7, none) := by decide +kernel

/-- S6: a halted core performs no transition. -/
theorem test_step_S6 :
    ((got (step State.reset)).map fun t => stop (step { t with tick := true })) =
      some (some (.halted ⟨.outOfBounds, 0x200, none, .empty⟩)) := by decide +kernel

theorem test_consumeFrame_D17 :
    see { start [] with dirty := true } 0x1200 (fun t => (t.consumeFrame.1.2, t.consumeFrame.2.dirty)) =
      some (true, false) := by decide +kernel

/-! ## Witnesses: for each statement, states and operands that meet its hypotheses, each clause at a boundary -/

theorem witness_CreationValues : State.reset.readByte 79 = 0x80 ∧ State.reset.readByte 80 = 0 := by decide +kernel

theorem witness_DecodeOfEncode :
    Instr.wellFormed .jumpV0 (.jpV0 0xFFF) = true ∧ Instr.wellFormed .fault (.drw 15 15 15) = true := by decide +kernel

theorem witness_EncodeOfDecode :
    decode .jumpV0 0xBFFF = .ok (.jpV0 0xFFF) ∧ decode .fault 0x8FFE = .ok (.shl 15 15) := by decide +kernel

theorem witness_OpcodeMapUnambiguous :
    decode .fault 0xFF65 = .ok (.loadRegs 15) ∧ (opcodeRows.all fun r => !matchesRow 0x5121 r) = true := by decide +kernel

/-- One word of each kind of R77, and a state in which a step fetches one. -/
theorem witness_IllegalWords :
    ([0x0000, 0x500F, 0x9001, 0x8FFF, 0xE09F, 0xF066].map (decode .jumpV0)) =
      [0x0000, 0x500F, 0x9001, 0x8FFF, 0xE09F, 0xF066].map (fun w => .error (.unknownOpcode w)) ∧
    decode .fault 0xB000 = .error (.unknownOpcode 0xB000) ∧
    (at200 State.reset 0x0000).fault = none ∧ 512 ≤ (at200 State.reset 0x0000).pc.toNat ∧
    (at200 State.reset 0x0000).pc.toNat + 1 ≤ 511 + (at200 State.reset 0x0000).progLen.val ∧
    decode (at200 State.reset 0x0000).cfg.bnnnMode (wordAtPc (at200 State.reset 0x0000)) =
      .error (.unknownOpcode (wordAtPc (at200 State.reset 0x0000))) := by decide +kernel

/-- An instruction that raises nothing, and one that raises a fault. -/
theorem witness_StepRunsDecodedInstruction :
    (at200 State.reset 0x00E0).fault = none ∧ 512 ≤ (at200 State.reset 0x00E0).pc.toNat ∧
    (at200 State.reset 0x00E0).pc.toNat + 1 ≤ 511 + (at200 State.reset 0x00E0).progLen.val ∧
    decode (at200 State.reset 0x00E0).cfg.bnnnMode (wordAtPc (at200 State.reset 0x00E0)) = .ok .cls ∧
    seeExec .cls (at200 State.reset 0x00E0) State.fault = some none ∧
    decode (at200 State.reset 0x00EE).cfg.bnnnMode (wordAtPc (at200 State.reset 0x00EE)) = .ok .ret ∧
    seeExec .ret (at200 State.reset 0x00EE) (fun t => t.fault.isSome) = some true := by decide +kernel

/-- Each side of the statement: an own effect with its `pc` (a skip that holds, a key wait), and a fault. -/
theorem witness_EveryInstructionAnswers :
    ([Instr.cls, .seByte 0 0, .ldVxK 0].map fun i => seeExec i State.reset fun t => (t.pc, t.fault)) =
      [some (0x202, none), some (0x204, none), some (0x200, none)] ∧
    (seeExec .ret (at200 State.reset 0x00EE) State.fault) = some (some someRecord) := by decide +kernel

/-- `pc` below the image, at its last word, and past it, in an image of 4 bytes. -/
theorem witness_BoundsCheck :
    ([511, 512, 514, 515].map fun pc : Word =>
      decide (512 ≤ pc.toNat ∧ pc.toNat + 1 ≤ 511 + (4 : Fin 3585).val)) = [false, true, true, false] ∧
    ([511, 512, 514, 515].map fun pc : Word =>
      (got (step { at200 State.reset 0x00E0 with progLen := 4, pc := pc })).map fun t =>
        t.fault.map FaultRecord.kind) =
      [some (some .outOfBounds), some none, some (some .unknownOpcode), some (some .outOfBounds)] := by decide +kernel

theorem witness_HaltedCoreIsStuck :
    ({ State.reset with fault := some someRecord } : State).fault = some someRecord := by decide +kernel

/-- A fault before fetch, one at decode and one at execute. -/
theorem witness_FaultEntryWritesRecordOnly :
    [State.reset, at200 State.reset 0xFFFF, at200 State.reset 0x00EE].map
      (fun s => (got (step s)).map fun t => t.fault.map FaultRecord.code) = [some (some 1), some (some 2), some (some 4)] := by
  decide +kernel

/-- Each of the five kinds an instruction can raise. -/
theorem witness_FaultKindsByInstruction :
    seeExec (.call 0) { State.reset with sp := 16 } (fun t => t.fault.map FaultRecord.code) = some (some 3) ∧
    seeExec .ret State.reset (fun t => t.fault.map FaultRecord.code) = some (some 4) ∧
    ([Instr.drw 0 0 15, .ldB 0, .storeRegs 15, .loadRegs 15].map fun i =>
      seeExec i (start [] 0xFFF) fun t => t.fault.map FaultRecord.code) = [some (some 5), some (some 5), some (some 5), some (some 5)] ∧
    ([Instr.skp 0, .sknp 0].map fun i => seeExec i (start [(0, 16)]) fun t => t.fault.map FaultRecord.code) =
      [some (some 6), some (some 6)] ∧
    seeExec (.jpV0 0) State.reset (fun t => t.fault.map FaultRecord.code) = some (some 2) := by decide +kernel

/-- The instruction that writes a timer, and another; a timer at 0 and at 255; `tick` 0 and 1. -/
theorem witness_TimersTickOncePerStep :
    ([(0xF515, false), (0xF515, true), (0xF518, true), (0x00E0, true)].map fun c : Word × Bool =>
      (got (step (at200 { start [(5, 0)] with DT := 0, ST := 255, tick := c.2 } c.1))).map fun t =>
        (t.fault, t.DT.toNat, t.ST.toNat)) =
      [some (none, 0, 255), some (none, 0, 254), some (none, 0, 0), some (none, 0, 254)] := by decide +kernel

theorem witness_JumpV0ByMode :
    ({ State.reset.cfg with bnnnMode := .jumpV0 } : Config).bnnnMode = .jumpV0 ∧
    (at200 State.reset 0xBFFF).cfg.bnnnMode = .fault ∧ (at200 State.reset 0xBFFF).fault = none ∧
    512 ≤ (at200 State.reset 0xBFFF).pc.toNat ∧
    (at200 State.reset 0xBFFF).pc.toNat + 1 ≤ 511 + (at200 State.reset 0xBFFF).progLen.val ∧
    wordAtPc (at200 State.reset 0xBFFF) = 0xB#4 ++ 0xFFF#12 := by decide +kernel

/-- The depths 0, 15 and 16: CALL has room at 0 and 15, and 16 is full. -/
theorem witness_CallPushesItsAddress :
    ([0, 15, 16].map fun d : Fin 17 => (decide (d.val < 16), decide (d.val = 16))) =
      [(true, false), (true, false), (false, true)] := by decide +kernel

/-- The depths 0, 1 and 16: RET has an entry at 1 (entry 0) and at 16 (entry 15), and 0 is empty. -/
theorem witness_ReturnPopsAndAdvances :
    (({ State.reset with sp := 1 } : State).sp.val = (0 : Fin 16).val + 1) ∧
    (({ State.reset with sp := 16 } : State).sp.val = (15 : Fin 16).val + 1) ∧ State.reset.sp.val = 0 := by decide +kernel

theorem witness_CallThenReturn : ({ State.reset with sp := 15 } : State).sp.val < 16 := by decide +kernel

theorem witness_RandomByteUnderMask : ({ State.reset with rnd := 0xFF } : State).rnd = 0xFF := by decide +kernel

/-- The bits 0 and 7 of a bitwise result. -/
theorem witness_BitwiseOperations :
    seeExec (.xorReg 1 2) (start [(1, 0x81), (2, 0x80)]) (fun t => (t.V[1].getLsbD 0, t.V[1].getLsbD 7)) =
      some (true, false) := by decide +kernel

/-- An order each, with operands other than VF and with VF as destination. -/
theorem witness_FlaggedWrite :
    ([VfDestOrder.flagLast, .resultLast, .docSequential].map fun o =>
      (seeExec (.addReg 14 0) (withOrder (start [(14, 0xFF), (0, 1)]) o) fun t => (t.V[14], t.V[15]))) =
      [some (0, 1), some (0, 1), some (0, 1)] ∧ (14 : Reg) ≠ VF ∧ (15 : Reg) = VF := by decide +kernel

theorem witness_OrdersAgreeAwayFromVF :
    (14 : Reg) ≠ VF ∧ (0 : Reg) ≠ VF ∧
    Instr.shl 14 0 ∈ [Instr.addReg 14 0, .subReg 14 0, .shr 14 0, .subnReg 14 0, .shl 14 0] ∧
    seeExec (.shl 14 0) (start [(14, 0x81)]) (fun t => (t.V[14], t.V[15])) = some (2, 1) := by decide +kernel

/-- A sprite that ends at the last byte of memory, and no sprite at all past it; `I + n` one past memory, and `I` itself far
past it; a covered pixel that is on, and a draw on
which no covered pixel is. -/
theorem witness_DrawXorsSprite :
    ((0 : Nibble).toNat = 0 ∨ (start [] 0xFFFF).I.toNat + (0 : Nibble).toNat ≤ 4096) ∧
    ((start [] 0xFF1).I.toNat + (15 : Nibble).toNat ≤ 4096) ∧
    (1 ≤ (15 : Nibble).toNat ∧ 4096 < (start [] 0xFF2).I.toNat + (15 : Nibble).toNat) ∧
    (1 ≤ (1 : Nibble).toNat ∧ 4096 < (start [] 0xFFFF).I.toNat + (1 : Nibble).toNat) ∧
    seeExec (.drw 0 0 1) { start [] with fb := Vector.replicate 32 1 } (fun t => (pixelAt t 0 0, pixelAt t 4 0, t.V[15])) =
      some (false, false, 1) ∧
    seeExec (.drw 0 0 1) (start []) (fun t => (pixelAt t 0 0, pixelAt t 4 0, t.V[15])) = some (true, false, 0) := by
  decide +kernel

/-- The same place twice: on a blank screen, and on one where the sprite's pixels are on. -/
theorem witness_DrawTwiceRestores :
    ((start []).I.toNat + (5 : Nibble).toNat ≤ 4096) ∧
    seeExec (.drw 0 1 5) (start []) (fun t => (t.V[0], t.V[1])) = some ((start []).V[0], (start []).V[1]) ∧
    pixelAt (start []) 0 0 = false ∧ pixelAt { start [] with fb := Vector.replicate 32 (BitVec.allOnes 64) } 0 0 = true := by
  decide +kernel

/-- `I` at the last font byte, the first RAM byte, the last place three bytes fit, and one past it. -/
theorem witness_StoreDecimal :
    ([79, 80, 4093, 4094, 65535].map fun i : Word =>
      (decide (80 ≤ i.toNat ∧ i.toNat + 2 ≤ 4095), decide (i.toNat ≤ 79), decide (4095 < i.toNat + 2))) =
      [(false, true, false), (true, false, false), (true, false, false), (false, false, true), (false, false, true)] := by
  decide +kernel

/-- The same for sixteen bytes (`x = 15`) and for one (`x = 0`). -/
theorem witness_StoreRegisters :
    ([79, 80, 4080, 4081, 65535].map fun i : Word =>
      (decide (80 ≤ i.toNat ∧ i.toNat + (15 : Reg).val ≤ 4095), decide (i.toNat ≤ 79), decide (4095 < i.toNat + (15 : Reg).val))) =
      [(false, true, false), (true, false, false), (true, false, false), (false, false, true), (false, false, true)] ∧
    80 ≤ (start [] 0xFFF).I.toNat ∧ (start [] 0xFFF).I.toNat + (0 : Reg).val ≤ 4095 := by decide +kernel

/-- The last place sixteen bytes fit, and one past it; a register of the loaded ones and one above. -/
theorem witness_LoadRegisters :
    (start [] 0xFF0).I.toNat + (15 : Reg).val ≤ 4095 ∧ 4095 < (start [] 0xFF1).I.toNat + (15 : Reg).val ∧
    (start []).I.toNat + (14 : Reg).val ≤ 4095 ∧ (14 : Reg).val ≤ (14 : Reg).val ∧ (14 : Reg).val < (15 : Reg).val := by
  decide +kernel

theorem witness_StoreThenLoadRegisters :
    (80 ≤ (start [] 0x50).I.toNat ∧ (start [] 0x50).I.toNat + (15 : Reg).val ≤ 4095) ∧
    (80 ≤ (start [] 0xFF0).I.toNat ∧ (start [] 0xFF0).I.toNat + (15 : Reg).val ≤ 4095) := by decide +kernel

/-- Registers stored over the end of memory, and the word of the last two. -/
theorem witness_StoresAreFetched :
    seeExec (.storeRegs 15) (start [(14, 0x12), (15, 0x34)] 0xFF0) (fun t => (t.fault, wordAtPc { t with pc := 0xFFE })) =
      some (none, 0x1234) ∧ (start [] 0xFF0).fault = none ∧ 14 + 1 ≤ (15 : Reg).val ∧
    (0xFFE : Word).toNat = (start [] 0xFF0).I.toNat + 14 := by decide +kernel

/-- The key index 15 and 16. -/
theorem witness_KeySkips :
    (start [(5, 15)]).V[(5 : Reg)].toNat = (15 : Fin 16).val ∧ 15 < (start [(5, 16)]).V[(5 : Reg)].toNat := by decide +kernel

/-- A lowest pressed key with a higher one pressed, the last key alone, and no key. -/
theorem witness_KeyWait :
    ((pressing State.reset [7, 9]).keys[(7 : Fin 16)] = true ∧
      ∀ j : Fin 16, j < 7 → (pressing State.reset [7, 9]).keys[j] = false) ∧
    ((pressing State.reset [15]).keys[(15 : Fin 16)] = true ∧
      ∀ j : Fin 16, j < 15 → (pressing State.reset [15]).keys[j] = false) ∧
    (∀ k : Fin 16, State.reset.keys[k] = false) := by decide +kernel

theorem witness_KeyWaitParks :
    (at200 State.reset 0xF30A).fault = none ∧ 512 ≤ (at200 State.reset 0xF30A).pc.toNat ∧
    (at200 State.reset 0xF30A).pc.toNat + 1 ≤ 511 + (at200 State.reset 0xF30A).progLen.val ∧
    decode (at200 State.reset 0xF30A).cfg.bnnnMode (wordAtPc (at200 State.reset 0xF30A)) = .ok (.ldVxK 3) ∧
    (∀ k : Fin 16, (⟨Vector.replicate 16 false, true, 7⟩ : StepInputs).keys[k] = false) ∧
    ((⟨(pressing State.reset [9]).keys, true, 7⟩ : StepInputs).keys[(9 : Fin 16)] = true ∧
      ∀ j : Fin 16, j < 9 → (⟨(pressing State.reset [9]).keys, true, 7⟩ : StepInputs).keys[j] = false) := by decide +kernel

/-- An image of the greatest length and one byte more. -/
theorem witness_LoadCopiesImage :
    State.reset.fault = none ∧ State.reset.loadOpen = true ∧ (List.replicate 3584 (0 : Byte)).length ≤ 3584 ∧
    3584 < (List.replicate 3585 (0 : Byte)).length := by
  simp only [List.length_replicate]
  decide +kernel

/-- A step with a next state, a load that succeeds, and no load. -/
theorem witness_LoadOnlyOnce :
    (got (step (at200 State.reset 0x00E0))).isSome = true ∧ (got (State.reset.load [0x00, 0xE0])).isSome = true ∧
    State.reset.fault = none ∧ State.reset.progLen.val = 0 := by decide +kernel

/-- A draw sets the flag. -/
theorem witness_ConsumeFrame :
    State.reset.dirty = false ∧ seeExec (.drw 0 0 1) State.reset State.dirty = some true := by decide +kernel

/-- A parked machine inside a subroutine. -/
def parkedInCall : State :=
  { at200 State.reset 0xF30A with sp := 1, stack := (Vector.replicate 16 0).set 0 0x200, awaitingKey := true }

/-- A state other than a created one that meets the invariant, and a step from it. -/
theorem witness_InvKeptByStep : parkedInCall.Inv ∧ (got (step parkedInCall)).isSome = true := by
  refine ⟨⟨by decide +kernel, by decide +kernel, by decide +kernel, fun _ => ⟨by decide +kernel, 3, by decide +kernel⟩,
    ?_, ?_⟩, by decide +kernel⟩
  · intro r h
    exact absurd h (by simp [parkedInCall, at200, withBytes, State.writeBytes, State.reset, State.create])
  · intro h
    exact absurd h (by simp [parkedInCall, at200])

/-- The invariant holds where a host acts. -/
theorem witness_InvKeptByHost : parkedInCall.Inv := witness_InvKeptByStep.1

/-- A reachable state that has run a step. -/
theorem witness_ReachableStatesMeetInv : ∃ t, Reachable t ∧ t.V[(10 : Reg)] = 0x42 := by
  have hl : Reachable (HostAction.apply State.reset (.load [0x6A, 0x42])) := .hostActed _ (.created Config.default)
  have hs : (got (step (HostAction.apply State.reset (.load [0x6A, 0x42])))).map (fun t => t.V[(10 : Reg)]) = some 0x42 := by
    decide +kernel
  obtain ⟨t, ht, hv⟩ := Option.map_eq_some_iff.1 hs
  exact ⟨t, .stepped hl ((got_eq _ _).1 ht), hv⟩

/-- A step from a state whose memory was written, and the last font address. -/
theorem witness_FontNeverChanges :
    79 < 80 ∧ (got (step (at200 State.reset 0xF055))).isSome = true ∧ (State.reset.readByte 79) = 0x80 := by decide +kernel

/-- A flag writer, a draw and an instruction that names VF: each changes it. -/
theorem witness_OnlySixWriteVFAsSideEffect :
    ([Instr.addReg 1 1, .drw 0 0 1, .ldByte 15 9].map fun i => seeExec i (start [(1, 0xFF), (15, 7)]) fun t => t.V[15]) =
      [some 1, some 0, some 9] ∧ (start [(1, 0xFF), (15, 7)]).V[VF] = 7 := by decide +kernel

/-- For each element a writer that changes it. -/
theorem witness_OnlyTheNamedInstructionsWrite :
    seeExec (.ldI 0x123) State.reset State.I = some 0x123 ∧ seeExec (.call 0x300) State.reset State.sp = some 1 ∧
    seeExec (.ldDtVx 1) (start [(1, 3)]) State.DT = some 3 ∧ seeExec (.ldStVx 1) (start [(1, 3)]) State.ST = some 3 ∧
    seeExec .cls State.reset State.dirty = some true ∧ seeExec (.ldVxK 0) State.reset State.awaitingKey = some true ∧
    seeExec (.ldB 0) (start [(0, 9)] 0x300) State.mem = some [(0x302, 9)] := by decide +kernel

theorem witness_StepsNeverClearDirty :
    (got (step { at200 State.reset 0x1200 with dirty := true })).map State.dirty = some true := by decide +kernel

/-- An instruction that reads no input. -/
theorem witness_InputsReadOnlyWhereNamed :
    (seeExec (.jp 0x300) State.reset State.pc = some 0x300) ∧ (∀ x, Instr.jp 0x300 ∉ [Instr.skp x, .sknp x, .ldVxK x]) ∧
    (∀ x kk, Instr.jp 0x300 ≠ .rnd x kk) ∧ (∀ x, Instr.jp 0x300 ≠ .ldStVx x) ∧ (∀ a, Instr.jp 0x300 ≠ .call a) ∧
    Instr.jp 0x300 ≠ .ret := by
  refine ⟨by decide +kernel, ?_, ?_, ?_, ?_, ?_⟩ <;> simp

theorem witness_ClockRateHasNoEffect : (got (step (at200 State.reset 0x1200))).isSome = true := by decide +kernel

end Sys2Proof.Tests
end

section
/-! The parameters of the machine (spec 00_scope.md R4): their defaults, and that `clock_hz` is read by nothing
(70_reset_and_hazards.md R272). Changing `clock_hz` commutes with the shared operations, with `exec` and with `step`. -/

namespace Sys2Proof.Machine

/-- The same machine with another `clock_hz`. -/
def State.withClockRate (s : State) (hz : Nat) : State := { s with cfg := { s.cfg with clockHz := hz } }

/-- An outcome with another `clock_hz` in its next state, if it has one. -/
def outcomeAtRate (hz : Nat) : Host.Outcome State Fault Refusal → Host.Outcome State Fault Refusal
  | .next t => .next (t.withClockRate hz)
  | .fault r => .fault r
  | .refused r => .refused r

/-! ## What is read of a state does not depend on `clock_hz` -/

@[simp] theorem pc_withClockRate (s : State) (hz : Nat) : (s.withClockRate hz).pc = s.pc := rfl
@[simp] theorem progLen_withClockRate (s : State) (hz : Nat) : (s.withClockRate hz).progLen = s.progLen := rfl
@[simp] theorem fault_withClockRate (s : State) (hz : Nat) : (s.withClockRate hz).fault = s.fault := rfl
@[simp] theorem bnnnMode_withClockRate (s : State) (hz : Nat) :
    (s.withClockRate hz).cfg.bnnnMode = s.cfg.bnnnMode := rfl
@[simp] theorem vfDestOrder_withClockRate (s : State) (hz : Nat) :
    (s.withClockRate hz).cfg.vfDestOrder = s.cfg.vfDestOrder := rfl
@[simp] theorem key_withClockRate (s : State) (hz : Nat) (k : Byte) : (s.withClockRate hz).key k = s.key k := rfl
@[simp] theorem firstKey_withClockRate (s : State) (hz : Nat) : (s.withClockRate hz).firstKey = s.firstKey := rfl
@[simp] theorem V_withClockRate (s : State) (hz : Nat) : (s.withClockRate hz).V = s.V := rfl
@[simp] theorem fetchWord_withClockRate (s : State) (hz : Nat) : (s.withClockRate hz).fetchWord = s.fetchWord := rfl

/-! ## The shared operations commute with a change of `clock_hz` -/

theorem push_withClockRate (s : State) (hz : Nat) (w : Word) :
    (s.withClockRate hz).push w = (s.push w).map (·.withClockRate hz) := by
  by_cases h : s.sp.val < 16
  · rw [State.push_of_lt s w h, State.push_of_lt (s.withClockRate hz) w h]
    rfl
  · have hfull : s.sp.val = 16 := by omega
    rw [State.push_full s w hfull, State.push_full (s.withClockRate hz) w hfull]
    rfl

theorem pop_withClockRate (s : State) (hz : Nat) :
    (s.withClockRate hz).pop = s.pop.map fun p => (p.1, p.2.withClockRate hz) := by
  by_cases h : s.sp.val = 0
  · rw [State.pop_empty s h, State.pop_empty (s.withClockRate hz) h]
    rfl
  · have hj : s.sp.val = (⟨s.sp.val - 1, by omega⟩ : Fin 16).val + 1 := by simp only; omega
    rw [State.pop_of_succ s _ hj, State.pop_of_succ (s.withClockRate hz) _ hj]
    rfl

theorem writeFlagged_withClockRate (s : State) (hz : Nat) (x y : Reg) (r : Byte → Byte → Byte)
    (f : Byte → Byte → Bool) :
    (s.withClockRate hz).writeFlagged x y r f = (s.writeFlagged x y r f).withClockRate hz := by
  unfold State.writeFlagged
  rw [vfDestOrder_withClockRate]
  cases s.cfg.vfDestOrder <;> rfl

/-- The end of a flag-writing instruction. -/
theorem next_writeFlagged_withClockRate (s : State) (hz : Nat) (x y : Reg) (r : Byte → Byte → Byte)
    (f : Byte → Byte → Bool) :
    .next ((s.withClockRate hz).writeFlagged x y r f).advance =
      outcomeAtRate hz (.next (s.writeFlagged x y r f).advance) := by
  rw [writeFlagged_withClockRate]
  rfl

theorem storeChecked_withClockRate (s : State) (hz base : Nat) (bs : List Byte) :
    (s.withClockRate hz).storeChecked base bs = outcomeAtRate hz (s.storeChecked base bs) := by
  unfold State.storeChecked
  cases firstFailing writeCheck base bs.length <;> rfl

theorem loadChecked_withClockRate (s : State) (hz base n : Nat) {use use' : List Byte → State}
    (huse : ∀ bs, use' bs = (use bs).withClockRate hz) :
    (s.withClockRate hz).loadChecked base n use' = outcomeAtRate hz (s.loadChecked base n use) := by
  obtain rfl : use' = fun bs => (use bs).withClockRate hz := funext huse
  unfold State.loadChecked
  cases firstFailing readCheck base n <;> rfl

theorem commit_withClockRate (s : State) (hz : Nat) :
    (s.withClockRate hz).commit = s.commit.withClockRate hz := by
  unfold State.commit
  rw [fault_withClockRate]
  cases s.fault <;> rfl

/-! ## Execute and step -/

/-- An instruction answers the same at every `clock_hz`, but for that parameter: the instructions that branch on what
they read, or go through a shared operation that does, by that operation's lemma; every other one writes fields only. -/
theorem exec_withClockRate (i : Instr) (s : State) (hz : Nat) :
    exec i (s.withClockRate hz) = outcomeAtRate hz (exec i s) := by
  cases i with
  | ret =>
    simp only [exec, execRet, pop_withClockRate]
    cases s.pop <;> rfl
  | call nnn =>
    simp only [exec, execCall, pc_withClockRate, push_withClockRate]
    cases s.push s.pc <;> rfl
  | jpV0 nnn =>
    simp only [exec, execJpV0, bnnnMode_withClockRate]
    cases s.cfg.bnnnMode <;> rfl
  | skp x =>
    simp only [exec, execSkp, State.readV_eq, V_withClockRate, key_withClockRate]
    cases s.key s.V[x] <;> rfl
  | sknp x =>
    simp only [exec, execSknp, State.readV_eq, V_withClockRate, key_withClockRate]
    cases s.key s.V[x] <;> rfl
  | ldVxK x =>
    simp only [exec, execLdVxK, firstKey_withClockRate]
    cases s.firstKey <;> rfl
  | addReg x y => exact next_writeFlagged_withClockRate s hz x y addResult addFlag
  | subReg x y => exact next_writeFlagged_withClockRate s hz x y subResult subFlag
  | shr x y => exact next_writeFlagged_withClockRate s hz x y shrResult shrFlag
  | subnReg x y => exact next_writeFlagged_withClockRate s hz x y subnResult subnFlag
  | shl x y => exact next_writeFlagged_withClockRate s hz x y shlResult shlFlag
  | drw x y n => exact loadChecked_withClockRate s hz s.base n.toNat fun _ => rfl
  | loadRegs x => exact loadChecked_withClockRate s hz s.base (x.val + 1) fun _ => rfl
  | ldB x => exact storeChecked_withClockRate s hz s.base (decimalDigits (s.readV x))
  | storeRegs x => exact storeChecked_withClockRate s hz s.base (s.regsUpTo x)
  | _ => rfl

/-- A step answers the same at every `clock_hz`, but for that parameter, whatever it answers. -/
theorem step_withClockRate (s : State) (hz : Nat) : step (s.withClockRate hz) = outcomeAtRate hz (step s) := by
  cases hf : s.fault with
  | some r =>
    rw [step_halted hf, step_halted (s := s.withClockRate hz) hf]
    rfl
  | none =>
    cases hb : inBounds s.pc s.progLen with
    | false =>
      rw [step_outOfBounds hf hb, step_outOfBounds (s := s.withClockRate hz) hf hb]
      rfl
    | true =>
      cases hd : decode s.cfg.bnnnMode s.fetchWord with
      | error e =>
        rw [step_unknownOpcode hf hb hd, step_unknownOpcode (s := s.withClockRate hz) hf hb hd]
        rfl
      | ok i =>
        simp only [step, State.fetchDecode, fault_withClockRate, hf, pc_withClockRate, progLen_withClockRate, hb,
          bnnnMode_withClockRate, fetchWord_withClockRate, hd, if_true, exec_withClockRate]
        cases exec i s with
        | next t => exact congrArg Host.Outcome.next (commit_withClockRate t hz)
        | fault r => rfl
        | refused r => rfl

/-- Settles O59: changing `clock_hz` commutes with every step. -/
theorem clockRateHasNoEffect : Obligations.ClockRateHasNoEffect := by
  intro s t hz h
  have hstep : step (s.withClockRate hz) = outcomeAtRate hz (step s) := step_withClockRate s hz
  rw [h] at hstep
  exact hstep

/-! ## The defaults -/

/-- The block of bytes read in a machine just created is the font's, where it lies in the font region (R53, R261). -/
theorem readBytes_create_font (c : Config) {a n : Nat} (h : a + n ≤ 80) :
    (State.create c).readBytes a n = (c.font.toList.drop a).take n := by
  refine List.ext_getElem (by simp; omega) fun k hk _ => ?_
  rw [length_readBytes] at hk
  rw [getElem_readBytes]
  simp [State.readByte, Memory.read, State.create, Memory.lookup, Memory.unlisted, show a + k < 80 by omega]

/-- Settles O2: the parameters by definition, each glyph as its five bytes of the font table. -/
theorem defaultParameters : Obligations.DefaultParameters := by
  refine ⟨rfl, fun d => ?_⟩
  rw [State.reset, readBytes_create_font Config.default (by omega)]
  revert d
  decide

end Sys2Proof.Machine
end

section
/-! What each instruction may write (spec 10_state.md R21–R33, 20_memory.md R50), said once as a frame for each
constructor; from it, which instructions change which element, and that no step clears `dirty`. -/

namespace Sys2Proof.Machine

/-! ## RET and CALL as equations -/

/-- RET with `j + 1` entries on the stack (R120). -/
theorem exec_ret_of_succ (s : State) (j : Fin 16) (h : s.sp.val = j.val + 1) :
    exec .ret s = .next { s with sp := ⟨j.val, Nat.lt_succ_of_lt j.isLt⟩, pc := s.stack[j] + 2 } := by
  simp only [exec, execRet, State.pop_of_succ s j h]
  rfl

/-- RET with an empty stack (R120). -/
theorem exec_ret_empty (s : State) (h : s.sp.val = 0) :
    exec .ret s = s.raise .stackUnderflow (.depth s.sp.val) := by
  simp only [exec, execRet, State.pop_empty s h]

/-- CALL below the capacity of the stack (R122). -/
theorem exec_call_of_lt (s : State) (nnn : Addr12) (h : s.sp.val < 16) :
    exec (.call nnn) s = .next { s with
      stack := s.stack.set s.sp.val s.pc, sp := ⟨s.sp.val + 1, Nat.succ_lt_succ h⟩, pc := zextAddr nnn } := by
  simp only [exec, execCall, State.push_of_lt s s.pc h]
  rfl

/-- CALL with a full stack (R122). -/
theorem exec_call_full (s : State) (nnn : Addr12) (h : s.sp.val = 16) :
    exec (.call nnn) s = s.raise .stackOverflow (.depth s.sp.val) := by
  simp only [exec, execCall, State.push_full s s.pc h]

/-- The stack is empty, or its top entry is at some `j`. -/
theorem sp_eq_zero_or_succ (s : State) : s.sp.val = 0 ∨ ∃ j : Fin 16, s.sp.val = j.val + 1 := by
  rcases Nat.eq_zero_or_pos s.sp.val with h0 | hpos
  · exact .inl h0
  · exact .inr ⟨⟨s.sp.val - 1, by omega⟩, by simp only; omega⟩

/-- The stack is full, or it has room. -/
theorem sp_eq_full_or_lt (s : State) : s.sp.val = 16 ∨ s.sp.val < 16 := by omega

/-! ## The frame of each instruction -/

/-- The elements instruction `i` may write, and for one that writes a single register the register: `t` differs from `s`
nowhere else. An instruction that can raise a fault may also write the record. -/
def FrameOf (i : Instr) (s t : State) : Prop :=
  match i with
  | .cls => t = { s with fb := t.fb, dirty := t.dirty, pc := t.pc }
  | .drw _ _ _ => t = { s with V := t.V, fb := t.fb, dirty := t.dirty, pc := t.pc, fault := t.fault }
  | .ret | .call _ => t = { s with sp := t.sp, stack := t.stack, pc := t.pc, fault := t.fault }
  | .jp _ | .jpV0 _ | .seByte _ _ | .sneByte _ _ | .seReg _ _ | .sneReg _ _ | .skp _ | .sknp _ =>
    t = { s with pc := t.pc, fault := t.fault }
  | .ldByte x _ | .addByte x _ | .ldReg x _ | .orReg x _ | .andReg x _ | .xorReg x _ | .rnd x _ | .ldVxDt x =>
    t = { s with V := s.V.set x t.V[x], pc := t.pc }
  | .ldVxK x => t = { s with V := s.V.set x t.V[x], awaitingKey := t.awaitingKey, pc := t.pc }
  | .addReg _ _ | .subReg _ _ | .shr _ _ | .subnReg _ _ | .shl _ _ => t = { s with V := t.V, pc := t.pc }
  | .loadRegs _ => t = { s with V := t.V, pc := t.pc, fault := t.fault }
  | .ldI _ | .addI _ | .ldF _ => t = { s with I := t.I, pc := t.pc }
  | .ldDtVx _ => t = { s with DT := t.DT, pc := t.pc }
  | .ldStVx _ => t = { s with ST := t.ST, pc := t.pc }
  | .ldB _ | .storeRegs _ => t = { s with mem := t.mem, pc := t.pc, fault := t.fault }

/-- One register written and the instruction completed, as a frame. -/
theorem writeV_advance_eq (s : State) (x : Reg) (b : Byte) :
    (s.writeV x b).advance = { s with
      V := s.V.set x (s.writeV x b).advance.V[x], pc := (s.writeV x b).advance.pc } := by
  rw [State.advance_V, State.readV_writeV_self]
  rfl

/-- The flag writer and the instruction completed, as a frame. -/
theorem writeFlagged_advance_eq (s : State) (x y : Reg) (r : Byte → Byte → Byte) (f : Byte → Byte → Bool) :
    (s.writeFlagged x y r f).advance = { s with
      V := (s.writeFlagged x y r f).advance.V, pc := (s.writeFlagged x y r f).advance.pc } := by
  rw [State.writeFlagged_eq]
  rfl

/-- A checked store writes memory, `pc` or the record. -/
theorem storeChecked_frame {s t : State} {base : Nat} {bs : List Byte} (h : s.storeChecked base bs = .next t) :
    t = { s with mem := t.mem, pc := t.pc, fault := t.fault } := by
  unfold State.storeChecked at h
  split at h <;> (obtain rfl := Host.Outcome.next.inj h; rfl)

/-- The key wait, as a frame: a key found or not. -/
theorem exec_ldVxK_frame {s t : State} {x : Reg} (h : exec (.ldVxK x) s = .next t) : FrameOf (.ldVxK x) s t := by
  simp only [exec, execLdVxK] at h
  split at h <;> obtain rfl := Host.Outcome.next.inj h
  · simp only [FrameOf, State.advance_V, State.setAwaiting_V, State.readV_writeV_self]
    rfl
  · simp [FrameOf, State.setAwaiting]

/-- Every instruction keeps to its frame. -/
theorem exec_frame {i : Instr} {s t : State} (h : exec i s = .next t) : FrameOf i s t := by
  cases i with
  | ret =>
    rcases sp_eq_zero_or_succ s with h0 | ⟨j, hj⟩
    · rw [exec_ret_empty s h0] at h
      exact Host.Outcome.next.inj h ▸ rfl
    · rw [exec_ret_of_succ s j hj] at h
      exact Host.Outcome.next.inj h ▸ rfl
  | call nnn =>
    rcases sp_eq_full_or_lt s with hfull | hlt
    · rw [exec_call_full s nnn hfull] at h
      exact Host.Outcome.next.inj h ▸ rfl
    · rw [exec_call_of_lt s nnn hlt] at h
      exact Host.Outcome.next.inj h ▸ rfl
  | jpV0 nnn =>
    simp only [exec, execJpV0] at h
    split at h <;> exact Host.Outcome.next.inj h ▸ rfl
  | skp x | sknp x =>
    simp only [exec, execSkp, execSknp] at h
    split at h <;> exact Host.Outcome.next.inj h ▸ rfl
  | drw | loadRegs => rcases State.loadChecked_cases h with rfl | ⟨a, k, rfl⟩ <;> rfl
  | ldB | storeRegs => exact storeChecked_frame h
  | ldVxK x => exact exec_ldVxK_frame h
  | ldByte x | addByte x | ldReg x | orReg x | andReg x | xorReg x | rnd x | ldVxDt x =>
    exact Host.Outcome.next.inj h ▸ writeV_advance_eq s x _
  | addReg x y | subReg x y | shr x y | subnReg x y | shl x y =>
    exact Host.Outcome.next.inj h ▸ writeFlagged_advance_eq s x y _ _
  | _ => exact Host.Outcome.next.inj h ▸ rfl

/-! ## Which instructions change which element -/

/-- Settles O56: each instruction's frame names what it may change. -/
theorem onlyTheNamedInstructionsWrite : Obligations.OnlyTheNamedInstructionsWrite := by
  intro i s t h
  have hframe := exec_frame h
  cases i <;> (rw [FrameOf] at hframe; rw [hframe]; simp)

/-- A register written that changes VF is VF. -/
theorem eq_VF_of_written {s t : State} {x : Reg} {b : Byte} (hV : t.V = s.V.set x b) (hne : t.V[VF] ≠ s.V[VF]) :
    x = VF := by
  by_contra hx
  rw [hV] at hne
  exact hne (Vector.getElem_set_ne _ _ (Fin.val_ne_of_ne hx))

/-- LD Vx, [I] changes VF only when `x` is F: it loads no register above `x` (R194). -/
theorem loadRegs_eq_VF_of_ne {s t : State} {x : Reg} (h : exec (.loadRegs x) s = .next t) (hne : t.V[VF] ≠ s.V[VF]) :
    x = VF := by
  rcases State.loadChecked_cases h with rfl | ⟨a, k, rfl⟩
  · by_contra hx
    have hval : x.val ≠ 15 := Fin.val_ne_of_ne hx
    refine hne ((getElem_writeRegsFrom _ s.V 0 15 (by decide)).trans (dif_neg ?_))
    simp only [length_readBytes]
    omega
  · exact absurd rfl hne

/-- Settles O55: from the frames, and for LD Vx, [I] from the registers it loads. -/
theorem onlySixWriteVFAsSideEffect : Obligations.OnlySixWriteVFAsSideEffect := by
  intro i s t h hne
  have hframe := exec_frame h
  cases i with
  | addReg x y | subReg x y | shr x y | subnReg x y | shl x y => exact .inl ⟨x, y, by simp⟩
  | drw x y n => exact .inr (.inl ⟨x, y, n, rfl⟩)
  | ldByte x kk | addByte x kk | rnd x kk =>
    obtain rfl := eq_VF_of_written (congrArg State.V hframe) hne
    exact .inr (.inr ⟨kk, 0, by simp⟩)
  | ldReg x y | orReg x y | andReg x y | xorReg x y =>
    obtain rfl := eq_VF_of_written (congrArg State.V hframe) hne
    exact .inr (.inr ⟨0, y, by simp⟩)
  | ldVxDt x | ldVxK x =>
    obtain rfl := eq_VF_of_written (congrArg State.V hframe) hne
    exact .inr (.inr ⟨0, 0, by simp⟩)
  | loadRegs x =>
    obtain rfl := loadRegs_eq_VF_of_ne h hne
    exact .inr (.inr ⟨0, 0, by simp⟩)
  | _ => exact absurd (congrArg (·.V[VF]) hframe) hne

/-! ## The dirty flag -/

/-- No instruction clears `dirty`: CLS and DRW set it or raise a fault, and no other changes it (R30). -/
theorem exec_keeps_dirty {i : Instr} {s t : State} (h : exec i s = .next t) (hd : s.dirty = true) : t.dirty = true := by
  obtain ⟨-, -, -, -, hwriters, -⟩ := onlyTheNamedInstructionsWrite i s t h
  by_contra hc
  rcases hwriters (.inr fun e => hc (e.trans hd)) with rfl | ⟨x, y, n, rfl⟩
  · exact hc (Host.Outcome.next.inj h ▸ rfl)
  · rcases State.loadChecked_cases h with rfl | ⟨a, k, rfl⟩
    · exact hc rfl
    · exact hc hd

/-- Settles O57: the step's own writes leave `dirty` alone, and the instruction keeps it. -/
theorem stepsNeverClearDirty : Obligations.StepsNeverClearDirty := by
  intro s t h hd
  obtain ⟨-, ⟨-, rfl⟩ | ⟨-, -, rfl⟩ | ⟨-, i, u, -, hexec, ⟨-, rfl⟩ | ⟨-, rfl⟩⟩⟩ := step_cases h
  · exact hd
  · exact hd
  · exact exec_keeps_dirty hexec hd
  · exact (exec_keeps_dirty hexec hd : u.dirty = true)

end Sys2Proof.Machine
end

section
/-! Inputs, ST and the stack are read only where the spec names a reader (spec 10_state.md R25, R27, R28): giving one of
them another value commutes with the shared operations and with every instruction but its readers and writers. -/

namespace Sys2Proof.Machine

/-- Another value for one of the elements that few instructions read. -/
inductive Patch where
  | keys (k : Vector Bool 16)
  | rnd (r : Byte)
  | ST (b : Byte)
  | tick (b : Bool)
  | stack (st : Vector Word 16)

/-- The state with the patched value. -/
def State.patch (s : State) : Patch → State
  | .keys k => { s with keys := k }
  | .rnd r => { s with rnd := r }
  | .ST b => { s with ST := b }
  | .tick b => { s with tick := b }
  | .stack st => { s with stack := st }

/-- The instructions that read the patched element, or overwrite it. -/
def Patch.UsedBy : Patch → Instr → Prop
  | .keys _, i => ∃ x, i ∈ [Instr.skp x, .sknp x, .ldVxK x]
  | .rnd _, i => ∃ x kk, i = .rnd x kk
  | .ST _, i => ∃ x, i = .ldStVx x
  | .tick _, _ => False
  | .stack _, i => (∃ a, i = .call a) ∨ i = .ret

/-- An outcome with the patched value in its next state, if it has one. -/
def patchOutcome (p : Patch) : Host.Outcome State Fault Refusal → Host.Outcome State Fault Refusal
  | .next t => .next (t.patch p)
  | .fault r => .fault r
  | .refused r => .refused r

/-! ## What is read of a state -/

@[simp] theorem patch_V (s : State) (p : Patch) : (s.patch p).V = s.V := by cases p <;> rfl
@[simp] theorem patch_I (s : State) (p : Patch) : (s.patch p).I = s.I := by cases p <;> rfl
@[simp] theorem patch_pc (s : State) (p : Patch) : (s.patch p).pc = s.pc := by cases p <;> rfl
@[simp] theorem patch_sp (s : State) (p : Patch) : (s.patch p).sp = s.sp := by cases p <;> rfl
@[simp] theorem patch_cfg (s : State) (p : Patch) : (s.patch p).cfg = s.cfg := by cases p <;> rfl

theorem patch_readBytes (s : State) (p : Patch) (a n : Nat) : (s.patch p).readBytes a n = s.readBytes a n := by
  cases p <;> rfl

/-! ## The shared operations commute with a patch -/

theorem raise_patch (s : State) (p : Patch) (kind : FaultKind) (info : FaultInfo) :
    (s.patch p).raise kind info = patchOutcome p (s.raise kind info) := by
  cases p <;> rfl

theorem storeChecked_patch (s : State) (p : Patch) (base : Nat) (bs : List Byte) :
    (s.patch p).storeChecked base bs = patchOutcome p (s.storeChecked base bs) := by
  unfold State.storeChecked
  split
  · exact raise_patch s p _ _
  · cases p <;> rfl

theorem loadChecked_patch (s : State) (p : Patch) (base n : Nat) {use use' : List Byte → State}
    (huse : ∀ bs, (use' bs).advance = (use bs).advance.patch p) :
    (s.patch p).loadChecked base n use' = patchOutcome p (s.loadChecked base n use) := by
  unfold State.loadChecked
  split
  · exact raise_patch s p _ _
  · rw [huse, patch_readBytes]
    rfl

/-- The end of a flag-writing instruction. -/
theorem next_writeFlagged_patch (s : State) (p : Patch) (x y : Reg) (r : Byte → Byte → Byte) (f : Byte → Byte → Bool) :
    .next ((s.patch p).writeFlagged x y r f).advance = patchOutcome p (.next (s.writeFlagged x y r f).advance) := by
  unfold State.writeFlagged
  rw [patch_cfg]
  cases s.cfg.vfDestOrder <;> cases p <;> rfl

/-! ## The instructions that use one of the elements -/

theorem exec_ret_patch (s : State) (p : Patch) (hp : ¬ p.UsedBy .ret) :
    exec .ret (s.patch p) = patchOutcome p (exec .ret s) := by
  rcases sp_eq_zero_or_succ s with h0 | ⟨j, hj⟩
  · rw [exec_ret_empty s h0, exec_ret_empty (s.patch p) (by rwa [patch_sp]), patch_sp, raise_patch]
  · rw [exec_ret_of_succ s j hj, exec_ret_of_succ (s.patch p) j (by rwa [patch_sp])]
    cases p with
    | stack st => exact absurd (.inr rfl) hp
    | _ => rfl

theorem exec_call_patch (s : State) (p : Patch) (nnn : Addr12) (hp : ¬ p.UsedBy (.call nnn)) :
    exec (.call nnn) (s.patch p) = patchOutcome p (exec (.call nnn) s) := by
  rcases sp_eq_full_or_lt s with hfull | hlt
  · rw [exec_call_full s nnn hfull, exec_call_full (s.patch p) nnn (by rwa [patch_sp]), patch_sp, raise_patch]
  · rw [exec_call_of_lt s nnn hlt, exec_call_of_lt (s.patch p) nnn (by rwa [patch_sp])]
    cases p with
    | stack st => exact absurd (.inl ⟨nnn, rfl⟩) hp
    | _ => rfl

/-- A patch of anything but the keypad leaves the keypad. -/
theorem patch_keys {s : State} {p : Patch} {i : Instr} {x : Reg} (hi : i ∈ [Instr.skp x, .sknp x, .ldVxK x])
    (hp : ¬ p.UsedBy i) : (s.patch p).keys = s.keys := by
  cases p with
  | keys k => exact absurd ⟨x, hi⟩ hp
  | _ => rfl

theorem key_patch {s : State} {p : Patch} {i : Instr} {x : Reg} (hi : i ∈ [Instr.skp x, .sknp x, .ldVxK x])
    (hp : ¬ p.UsedBy i) (k : Byte) : (s.patch p).key k = s.key k := by
  rw [State.key, State.key, patch_keys hi hp]

theorem firstKey_patch {s : State} {p : Patch} {i : Instr} {x : Reg} (hi : i ∈ [Instr.skp x, .sknp x, .ldVxK x])
    (hp : ¬ p.UsedBy i) : (s.patch p).firstKey = s.firstKey := by
  rw [State.firstKey, State.firstKey, patch_keys hi hp]

/-- An instruction answers the same with a patched element that it does not use, and leaves the patched value. -/
theorem exec_patch (i : Instr) (s : State) (p : Patch) (hp : ¬ p.UsedBy i) :
    exec i (s.patch p) = patchOutcome p (exec i s) := by
  cases i with
  | ret => exact exec_ret_patch s p hp
  | call nnn => exact exec_call_patch s p nnn hp
  | jpV0 nnn =>
    simp only [exec, execJpV0, patch_cfg]
    cases s.cfg.bnnnMode
    · exact raise_patch s p _ _
    · cases p <;> rfl
  | skp x | sknp x =>
    simp only [exec, execSkp, execSknp, State.readV_eq, patch_V, key_patch (x := x) (by simp) hp]
    cases s.key s.V[x]
    · exact raise_patch s p _ _
    · cases p <;> rfl
  | ldVxK x =>
    simp only [exec, execLdVxK, firstKey_patch (x := x) (by simp) hp]
    cases s.firstKey <;> cases p <;> rfl
  | rnd x kk =>
    cases p with
    | rnd r => exact absurd ⟨x, kk, rfl⟩ hp
    | _ => rfl
  | ldStVx x =>
    cases p with
    | ST b => exact absurd ⟨x, rfl⟩ hp
    | _ => rfl
  | addReg x y => exact next_writeFlagged_patch s p x y addResult addFlag
  | subReg x y => exact next_writeFlagged_patch s p x y subResult subFlag
  | shr x y => exact next_writeFlagged_patch s p x y shrResult shrFlag
  | subnReg x y => exact next_writeFlagged_patch s p x y subnResult subnFlag
  | shl x y => exact next_writeFlagged_patch s p x y shlResult shlFlag
  | drw x y n =>
    simp only [exec, execDrw, State.base, patch_I]
    exact loadChecked_patch s p _ _ fun _ => by cases p <;> rfl
  | loadRegs x =>
    simp only [exec, execLoadRegs, State.base, patch_I]
    exact loadChecked_patch s p _ _ fun _ => by cases p <;> rfl
  | ldB x =>
    simp only [exec, execLdB, State.base, State.readV_eq, patch_I, patch_V]
    exact storeChecked_patch s p _ _
  | storeRegs x =>
    simp only [exec, execStoreRegs, State.base, State.regsUpTo, patch_I, patch_V]
    exact storeChecked_patch s p _ _
  | _ => cases p <;> rfl

/-- `exec_patch` for an instruction that answers a next state. -/
theorem exec_patch_next {i : Instr} {s t : State} (h : exec i s = .next t) (p : Patch) (hp : ¬ p.UsedBy i) :
    exec i (s.patch p) = .next (t.patch p) := by
  rw [exec_patch i s p hp, h]
  rfl

/-- Settles O58: one patch for each of the five elements. -/
theorem inputsReadOnlyWhereNamed : Obligations.InputsReadOnlyWhereNamed := by
  intro i s t h
  refine ⟨fun k hk => ?_, fun r hr => ?_, fun b hb => ?_, fun b => ?_, fun st hcall hret => ?_⟩
  · exact exec_patch_next h (.keys k) fun ⟨x, hx⟩ => hk x hx
  · exact exec_patch_next h (.rnd r) fun ⟨x, kk, hx⟩ => hr x kk hx
  · exact exec_patch_next h (.ST b) fun ⟨x, hx⟩ => hb x hx
  · exact exec_patch_next h (.tick b) id
  · exact exec_patch_next h (.stack st) fun hu => hu.elim (fun ⟨a, ha⟩ => hcall a ha) hret

end Sys2Proof.Machine
end

section
/-! Machine creation element by element (spec 10_state.md R36), and the invariant `State.Inv` at creation and over every
step: fault entry keeps it, and each instruction's effect keeps it clause by clause. -/

namespace Sys2Proof.Machine

/-! ## Creation -/

/-- Every byte of a machine just created is the one an unlisted address reads as (R36, R53). -/
theorem readByte_create (c : Config) (a : Nat) : (State.create c).readByte a = Memory.unlisted c.font a :=
  Memory.read_unlisted fun _ hc => absurd hc List.not_mem_nil

/-- Settles O1: each element by its value in `State.create`, memory by what an unlisted address reads as. -/
theorem creationValues : Obligations.CreationValues := by
  rintro c s rfl
  refine ⟨fun x => ?_, rfl, rfl, rfl, fun j => ?_, rfl, rfl, fun px py => ?_, rfl, rfl, rfl, rfl, fun a h => ?_,
    fun a h => ?_⟩
  · simp [State.create]
  · simp [State.create]
  · simp [State.create, pixelAt]
  · rw [readByte_create, Memory.unlisted, dif_pos h]
  · rw [readByte_create, Memory.unlisted, dif_neg (by omega)]

/-- A machine just created lists no memory, holds no stack entry, waits for no key and records no fault. -/
theorem inv_create (c : Config) : (State.create c).Inv where
  memCanonical := rfl
  fontIntact := fun _ hc => absurd hc List.not_mem_nil
  stackInImage := fun _ hj => absurd hj (Nat.not_lt_zero _)
  parked := fun h => absurd h Bool.false_ne_true
  recorded := fun r h => absurd h (Option.some_ne_none r).symm
  unstarted := fun _ => ⟨rfl, rfl⟩

/-- Settles O50: `inv_create`, for reset with the default parameters. -/
theorem invAtCreation : Obligations.InvAtCreation := ⟨inv_create, inv_create Config.default⟩

/-! ## Fault entry keeps the invariant -/

/-- Fault entry with a record of the right form keeps the invariant: it writes the record only (R234). -/
theorem State.Inv.setFault {s : State} (hs : s.Inv) {kind : FaultKind} {info : FaultInfo}
    (hinfo : (s.faultRecord kind info).infoFits) (hkind : kind = .outOfBounds ↔ inBounds s.pc s.progLen = false) :
    (s.setFault (s.faultRecord kind info)).Inv where
  memCanonical := hs.memCanonical
  fontIntact := hs.fontIntact
  stackInImage := hs.stackInImage
  parked := hs.parked
  recorded := by
    rintro r hr
    obtain rfl := Option.some.inj hr
    exact ⟨rfl, rfl, hinfo, hkind⟩
  unstarted := hs.unstarted

/-- A fault raised at execute keeps the invariant: its `pc` is in the image. -/
theorem RaisedFrom.inv {s t : State} (h : RaisedFrom s t) (hs : s.Inv) (hb : inBounds s.pc s.progLen = true) :
    t.Inv := by
  obtain ⟨kind, info, hkind, hinfo, rfl⟩ := h
  exact hs.setFault hinfo ⟨fun e => absurd e hkind, fun e => absurd (hb.symm.trans e) Bool.false_ne_true.symm⟩

/-! ## What an instruction does to the elements of the invariant -/

/-- The memory of `t` is that of `s`, or that with bytes stored above the font and inside memory (R56, R57). -/
def StoredFrom (s t : State) : Prop :=
  t.mem = s.mem ∨
    ∃ base bs, 80 ≤ base ∧ base + bs.length ≤ 4096 ∧ t.mem = Memory.writeBytes s.cfg.font s.mem base bs

/-- A checked store stores above the font and inside memory, or nothing. -/
theorem storeChecked_mem_cases {s t : State} {base : Nat} {bs : List Byte} (hn : 1 ≤ bs.length)
    (h : s.storeChecked base bs = .next t) : StoredFrom s t := by
  rcases State.storeChecked_cases hn h with ⟨h80, hlen, rfl⟩ | ⟨a, k, rfl⟩
  · exact .inr ⟨base, bs, h80, hlen, rfl⟩
  · exact .inl rfl

/-- Memory after an instruction: only LD B and LD [I] change it, each by a checked store (R50). -/
theorem exec_mem_cases {i : Instr} {s t : State} (h : exec i s = .next t) : StoredFrom s t := by
  by_cases hm : t.mem = s.mem
  · exact .inl hm
  · obtain ⟨-, -, -, -, -, -, hwriters, -⟩ := onlyTheNamedInstructionsWrite i s t h
    rcases hwriters hm with ⟨x, rfl⟩ | ⟨x, rfl⟩
    · exact storeChecked_mem_cases (bs := decimalDigits (s.readV x)) (by simp [decimalDigits]) h
    · exact storeChecked_mem_cases (bs := s.regsUpTo x) (by rw [length_regsUpTo]; omega) h

/-- No instruction changes the length of the image (R33). -/
theorem exec_progLen {i : Instr} {s t : State} (h : exec i s = .next t) : t.progLen = s.progLen := by
  obtain ⟨-, -, -, -, -, -, -, hlen, -⟩ := onlyTheNamedInstructionsWrite i s t h
  exact hlen

/-- No instruction changes a parameter (R4). -/
theorem exec_cfg {i : Instr} {s t : State} (h : exec i s = .next t) : t.cfg = s.cfg := by
  obtain ⟨-, -, -, -, -, -, -, -, hcfg, -⟩ := onlyTheNamedInstructionsWrite i s t h
  exact hcfg

/-- Memory stays in canonical form. -/
theorem State.Inv.memCanonical_exec {i : Instr} {s t : State} (hs : s.Inv) (h : exec i s = .next t) :
    Memory.wf t.cfg.font t.mem = true := by
  rw [exec_cfg h]
  rcases exec_mem_cases h with hm | ⟨base, bs, -, hlen, hm⟩
  · rw [hm]
    exact hs.memCanonical
  · rw [hm]
    exact Memory.wf_writeBytes bs hlen hs.memCanonical

/-- The font region stays unlisted: bytes are stored above it only (R52, R57). -/
theorem State.Inv.fontIntact_exec {i : Instr} {s t : State} (hs : s.Inv) (h : exec i s = .next t) :
    ∀ c ∈ t.mem, 80 ≤ c.1 := by
  intro c hc
  rcases exec_mem_cases h with hm | ⟨base, bs, h80, -, hm⟩
  · exact hs.fontIntact c (hm ▸ hc)
  · rcases Memory.mem_writeBytes_cases bs (hm ▸ hc) with ⟨hbase, -⟩ | hold
    · omega
    · exact hs.fontIntact c hold

/-- The stack after CALL: the new entry is the `pc` of an instruction in the image (R122 after R102). -/
theorem State.Inv.stackInImage_call {s t : State} {nnn : Addr12} (hs : s.Inv) (hb : inBounds s.pc s.progLen = true)
    (h : exec (.call nnn) s = .next t) : ∀ j : Fin 16, j.val < t.sp.val → inBounds t.stack[j] s.progLen = true := by
  rcases sp_eq_full_or_lt s with hfull | hlt
  · rw [exec_call_full s nnn hfull] at h
    obtain rfl := Host.Outcome.next.inj h
    exact hs.stackInImage
  · rw [exec_call_of_lt s nnn hlt] at h
    obtain rfl := Host.Outcome.next.inj h
    intro j hj
    by_cases hjsp : s.sp.val = j.val
    · simpa [hjsp] using hb
    · have hold : j.val < s.sp.val := by
        simp only at hj
        omega
      simpa [hjsp] using hs.stackInImage j hold

/-- The stack after RET: fewer of the same entries (R120). -/
theorem State.Inv.stackInImage_ret {s t : State} (hs : s.Inv) (h : exec .ret s = .next t) :
    ∀ j : Fin 16, j.val < t.sp.val → inBounds t.stack[j] s.progLen = true := by
  rcases sp_eq_zero_or_succ s with h0 | ⟨k, hk⟩
  · rw [exec_ret_empty s h0] at h
    obtain rfl := Host.Outcome.next.inj h
    exact hs.stackInImage
  · rw [exec_ret_of_succ s k hk] at h
    obtain rfl := Host.Outcome.next.inj h
    exact fun j hj => hs.stackInImage j (by simp only at hj; omega)

/-- Every return address stays the address of a word of the image. -/
theorem State.Inv.stackInImage_exec {i : Instr} {s t : State} (hs : s.Inv) (hb : inBounds s.pc s.progLen = true)
    (h : exec i s = .next t) : ∀ j : Fin 16, j.val < t.sp.val → inBounds t.stack[j] t.progLen = true := by
  rw [exec_progLen h]
  by_cases hsame : t.sp = s.sp ∧ t.stack = s.stack
  · obtain ⟨hsp, hstack⟩ := hsame
    rw [hsp, hstack]
    exact hs.stackInImage
  · obtain ⟨-, hwriters, -⟩ := onlyTheNamedInstructionsWrite i s t h
    rcases hwriters (not_and_or.1 hsame) with ⟨nnn, rfl⟩ | rfl
    · exact hs.stackInImage_call hb h
    · exact hs.stackInImage_ret h

/-- After LD Vx, K the core waits only where no key was pressed, and then nothing else changed (R215). -/
theorem exec_ldVxK_waiting {s t : State} {x : Reg} (h : exec (.ldVxK x) s = .next t) (ht : t.awaitingKey = true) :
    t = s.setAwaiting true := by
  simp only [exec, execLdVxK] at h
  split at h <;> obtain rfl := Host.Outcome.next.inj h
  · exact absurd ht Bool.false_ne_true
  · rfl

/-- A core waits for a key only while parked in LD Vx, K: no other instruction starts or leaves a wait (R31, R216). -/
theorem State.Inv.parked_exec {i : Instr} {s t : State} (hs : s.Inv) (hb : inBounds s.pc s.progLen = true)
    (hd : decode s.cfg.bnnnMode s.fetchWord = .ok i) (h : exec i s = .next t) (ht : t.awaitingKey = true) :
    inBounds t.pc t.progLen = true ∧ ∃ x, decode t.cfg.bnnnMode t.fetchWord = .ok (.ldVxK x) := by
  have hi : ∃ x, i = .ldVxK x := by
    by_cases hsame : t.awaitingKey = s.awaitingKey
    · obtain ⟨-, x, hx⟩ := hs.parked (hsame ▸ ht)
      exact ⟨x, Except.ok.inj (hd.symm.trans hx)⟩
    · obtain ⟨-, -, -, -, -, hwriter, -⟩ := onlyTheNamedInstructionsWrite i s t h
      exact hwriter hsame
  obtain ⟨x, rfl⟩ := hi
  obtain rfl := exec_ldVxK_waiting h ht
  exact ⟨hb, x, hd⟩

/-! ## The step -/

/-- The step of an instruction that raised nothing keeps the invariant: the instruction keeps its clauses, and the end of
the step writes timers and inputs and closes `load`. -/
theorem State.Inv.commit_exec {i : Instr} {s t : State} (hs : s.Inv) (hb : inBounds s.pc s.progLen = true)
    (hd : decode s.cfg.bnnnMode s.fetchWord = .ok i) (h : exec i s = .next t) (ht : t.fault = none) :
    t.clock.closeLoad.nextInputs.Inv where
  memCanonical := hs.memCanonical_exec (t := t) h
  fontIntact := hs.fontIntact_exec (t := t) h
  stackInImage := hs.stackInImage_exec (t := t) hb h
  parked := hs.parked_exec (t := t) hb hd h
  recorded := fun r hr => absurd (ht.symm.trans hr) (Option.some_ne_none r).symm
  unstarted := fun ho => absurd ho Bool.false_ne_true

/-- Settles O51: a step enters a fault before execute, or runs an instruction that enters one, or takes its effect. -/
theorem invKeptByStep : Obligations.InvKeptByStep := by
  intro s u hs h
  obtain ⟨hf, ⟨hb, rfl⟩ | ⟨hb, -, rfl⟩ | ⟨hb, i, t, hd, hexec, ⟨hr, rfl⟩ | ⟨he, rfl⟩⟩⟩ := step_cases h
  · exact hs.setFault rfl ⟨fun _ => hb, fun _ => rfl⟩
  · exact RaisedFrom.inv ⟨.unknownOpcode, .empty, by decide, rfl, rfl⟩ hs hb
  · exact hr.inv hs hb
  · exact hs.commit_exec hb hd hexec (he.fault.trans hf)

end Sys2Proof.Machine
end

section
/-! Memory (spec 20_memory.md): the bytes a register store writes are the bytes fetched from there (R64), and the 80 font
bytes are kept by every step and every host action (R52, R57, R261). -/

namespace Sys2Proof.Machine

/-! ## Stored registers as fetched words -/

/-- The byte LD [I], Vx leaves at `I + k`, where it raised nothing (R193). -/
theorem readByte_of_exec_storeRegs {s t : State} {x : Reg} {k : Nat} (h : exec (.storeRegs x) s = .next t)
    (ht : t.fault = none) (hk : k ≤ x.val) : t.readByte (s.I.toNat + k) = s.V[Fin.ofNat 16 k] := by
  have hlen : k < (s.regsUpTo x).length := by rw [length_regsUpTo]; omega
  rcases State.storeChecked_cases (Nat.one_le_of_lt hlen) h with ⟨-, -, rfl⟩ | ⟨a, c, rfl⟩
  · exact (readByte_writeBytes_inside s (s.regsUpTo x) s.I.toNat k hlen).trans (getElem_regsUpTo s x k hlen)
  · exact absurd ht (Option.some_ne_none _)

/-- Settles O42: the two bytes at `pc` are two of the bytes stored. -/
theorem storesAreFetched : Obligations.StoresAreFetched := by
  intro s t x k p h _ ht hk hp
  have hhi : t.readByte p.toNat = s.V[Fin.ofNat 16 k] := by
    rw [hp]
    exact readByte_of_exec_storeRegs h ht (by omega)
  have hlo : t.readByte (p.toNat + 1) = s.V[Fin.ofNat 16 (k + 1)] := by
    rw [hp, Nat.add_assoc]
    exact readByte_of_exec_storeRegs h ht hk
  rw [← hhi, ← hlo]
  rfl

/-! ## The font region -/

/-- The machine `t` has the parameters of `s`, and every byte of its font region reads as in `s`. -/
structure KeepsFont (s t : State) : Prop where
  cfg : t.cfg = s.cfg
  byte : ∀ a, a < 80 → t.readByte a = s.readByte a

/-- Where neither memory nor a parameter is written, the font is kept. -/
theorem KeepsFont.of_mem_eq {s t : State} (hm : t.mem = s.mem) (hcfg : t.cfg = s.cfg) : KeepsFont s t :=
  ⟨hcfg, fun a _ => readByte_congr hm (congrArg Config.font hcfg) a⟩

/-- Bytes stored above the font keep it (R57). -/
theorem StoredFrom.keepsFont {s t : State} (hm : StoredFrom s t) (hcfg : t.cfg = s.cfg) : KeepsFont s t := by
  rcases hm with hm | ⟨base, bs, h80, -, hm⟩
  · exact .of_mem_eq hm hcfg
  · refine ⟨hcfg, fun a ha => ?_⟩
    calc t.readByte a
      _ = (s.writeBytes base bs).readByte a :=
        readByte_congr (s := s.writeBytes base bs) hm (congrArg Config.font hcfg) a
      _ = s.readByte a := readByte_writeBytes_outside s bs base a (.inl (by omega))

/-- No instruction writes the font region, whether it completes or raises a fault (R57). -/
theorem exec_keepsFont {i : Instr} {s t : State} (h : exec i s = .next t) : KeepsFont s t :=
  (exec_mem_cases h).keepsFont (exec_cfg h)

/-- Fault entry and the end of a step write neither memory nor parameters, so a step keeps the font as its instruction
does (R52). -/
theorem step_keepsFont {s u : State} (h : step s = .next u) : KeepsFont s u := by
  obtain ⟨-, ⟨-, rfl⟩ | ⟨-, -, rfl⟩ | ⟨-, i, t, -, hexec, ⟨-, rfl⟩ | ⟨-, rfl⟩⟩⟩ := step_cases h
  · exact .of_mem_eq rfl rfl
  · exact .of_mem_eq rfl rfl
  · exact exec_keepsFont hexec
  · obtain ⟨hcfg, hbyte⟩ := exec_keepsFont hexec
    exact ⟨hcfg, hbyte⟩

/-- What a load with a next state was allowed by, and what it writes (R262, R264). -/
theorem load_next {s t : State} {bytes : List Byte} (h : s.load bytes = .next t) :
    s.fault = none ∧ s.loadOpen = true ∧ ∃ hlen : bytes.length ≤ 3584,
      t = { s.writeBytes 512 bytes with progLen := ⟨bytes.length, Nat.lt_succ_of_le hlen⟩, loadOpen := false } := by
  unfold State.load at h
  split at h
  · rename_i hopen
    split at h
    · rename_i hlen
      exact ⟨hopen.1, hopen.2, hlen, (Host.Outcome.next.inj h).symm⟩
    · exact nomatch h
  · exact nomatch h

/-- A load copies its image above the font, to 512 and on (R262). -/
theorem load_keepsFont {s t : State} {bytes : List Byte} (h : s.load bytes = .next t) : KeepsFont s t := by
  obtain ⟨-, -, hlen, rfl⟩ := load_next h
  exact StoredFrom.keepsFont (.inr ⟨512, bytes, by omega, by omega, rfl⟩) rfl

/-- A host action keeps the font: only a load that succeeds writes memory (R52, R262). -/
theorem hostAction_keepsFont (s : State) (a : HostAction) : KeepsFont s (a.apply s) := by
  cases a with
  | load bytes =>
    simp only [HostAction.apply]
    split
    · next hload => exact load_keepsFont hload
    · exact .of_mem_eq rfl rfl
    · exact .of_mem_eq rfl rfl
  | setInputs keys tick rnd => exact .of_mem_eq rfl rfl
  | consumeFrame => exact .of_mem_eq rfl rfl

/-- The font region reads as the parameter FONT (R53). -/
def HasFont (s : State) : Prop := ∀ a, ∀ h : a < 80, s.readByte a = s.cfg.font[a]

/-- What keeps the font region and the parameters keeps the one equal to the other. -/
theorem KeepsFont.hasFont {s t : State} (h : KeepsFont s t) (hs : HasFont s) : HasFont t := by
  intro a ha
  simp only [h.byte a ha, h.cfg, hs a ha]

/-- Machine creation leaves the parameter FONT in the font region (R53, R261). -/
theorem hasFont_create (c : Config) : HasFont (State.create c) := fun a h => by
  rw [readByte_create, Memory.unlisted, dif_pos h]
  rfl

/-- The font region of every reachable state reads as the parameter: at creation it does, and steps and host actions
keep it (R52). -/
theorem Reachable.hasFont {s : State} (h : Reachable s) : HasFont s := by
  induction h with
  | created c => exact hasFont_create c
  | stepped _ hstep ih => exact (step_keepsFont hstep).hasFont ih
  | hostActed a _ ih => exact (hostAction_keepsFont _ a).hasFont ih

/-- Settles O54: `step_keepsFont` from any state, `Reachable.hasFont` from creation on. -/
theorem fontNeverChanges : Obligations.FontNeverChanges :=
  ⟨fun _ _ a ha h => (step_keepsFont h).byte a ha, fun _ h => h.hasFont⟩

end Sys2Proof.Machine
end

section
/-! The decoder and the encoder (spec 30_encoding.md R70–R80, 20_memory.md R54): they are inverse to each other, the words
the decoder refuses are those of R77, and no word has two rows in the opcode map. -/

namespace Sys2Proof

/-! ## Decoding an encoded instruction -/

/-- The decoder reads an instruction back from its word, on every machine on which the instruction exists (R75). -/
theorem decode_encode {m : BnnnMode} {i : Instr} (h : i.wellFormed m = true) : decode m (encode i) = .ok i := by
  cases i with
  | cls => rfl
  | ret => rfl
  | jpV0 nnn =>
    have hm : m = .jumpV0 := of_decide_eq_true h
    simp [encode, decode, hm]
  | _ => simp [encode, decode, decode8, decodeE, decodeF]

/-- The decoder on bytes reads the instruction back from its two bytes and leaves what follows them (R54). -/
theorem decodeBytes_encodeBytes {m : BnnnMode} {i : Instr} (h : i.wellFormed m = true) (rest : List Byte) :
    decodeBytes m (encodeBytes i ++ rest) = .ok (i, rest) := by
  simp [encodeBytes, decodeBytes, decode_encode h]

/-- Settles O4: an instruction's fields are read back from its word, format by format. -/
theorem decodeOfEncode : Obligations.DecodeOfEncode :=
  fun _ _ rest h => ⟨decode_encode h, decodeBytes_encodeBytes h rest⟩

/-! ## A word from the fields the decoder selects by -/

theorem nibble_eq_of_toNat {n : Nibble} {k : Nat} (h : n.toNat = k) : n = BitVec.ofNat 4 k := by
  rw [← h, BitVec.ofNat_toNat, BitVec.setWidth_eq]

theorem encodeA_of_op {w : Word} {op : Nibble} (hop : opField w = op) : encodeA op (nnnField w) = w := by
  rw [← hop, encodeA_fields]

theorem encodeXK_of_op {w : Word} {op : Nibble} (hop : opField w = op) : encodeXK op (xField w) (kkField w) = w := by
  rw [← hop, encodeXK_fields]

theorem encodeXY_of_op_n {w : Word} {op n : Nibble} (hop : opField w = op) (hn : nField w = n) :
    encodeXY op (xField w) (yField w) n = w := by
  rw [← hop, ← hn, encodeXY_fields]

theorem encodeX_of_op_kk {w : Word} {op : Nibble} {s8 : Byte} (hop : opField w = op) (hkk : kkField w = s8) :
    encodeX op (xField w) s8 = w := by
  rw [← hop, ← hkk, encodeX_fields]

/-! ## What the decoder answers on a word -/

/-- What a decoder's answer on the word `w` must be, where `illegal` says that `w` is illegal: an instruction that exists
in the mode `m` and has the word `w`, which is not illegal; or the refusal of `w`, which is. -/
def AnswersFor (m : BnnnMode) (w : Word) (illegal : Prop) : Except DecodeError Instr → Prop
  | .ok i => encode i = w ∧ i.wellFormed m = true ∧ ¬ illegal
  | .error e => e = .unknownOpcode w ∧ illegal

/-- The illegal words of R77, by the fields of the word. -/
def IllegalWord (m : BnnnMode) (w : Word) : Prop :=
  (opField w = 0x0 ∧ w ≠ 0x00E0 ∧ w ≠ 0x00EE) ∨
  ((opField w = 0x5 ∨ opField w = 0x9) ∧ nField w ≠ 0) ∨
  (opField w = 0x8 ∧ nField w ∈ [0x8#4, 0x9#4, 0xA#4, 0xB#4, 0xC#4, 0xD#4, 0xF#4]) ∨
  (opField w = 0xE ∧ kkField w ∉ [0x9E#8, 0xA1#8]) ∨
  (opField w = 0xF ∧ kkField w ∉ [0x07#8, 0x0A#8, 0x15#8, 0x18#8, 0x1E#8, 0x29#8, 0x33#8, 0x55#8, 0x65#8]) ∨
  (opField w = 0xB ∧ m = .fault)

theorem decode0_answers (m : BnnnMode) (w : Word) : AnswersFor m w (w ≠ 0x00E0 ∧ w ≠ 0x00EE) (decode0 w) := by
  unfold decode0
  split_ifs with hcls hret
  · exact ⟨hcls.symm, rfl, by simp [hcls]⟩
  · exact ⟨hret.symm, rfl, by simp [hret]⟩
  · exact ⟨rfl, hcls, hret⟩

/-- The sub-selectors left to the last arm of family 8 are the seven that no row has (R77). -/
theorem decode8_answers (m : BnnnMode) {w : Word} (hop : opField w = 0x8) :
    AnswersFor m w (nField w ∈ [0x8#4, 0x9#4, 0xA#4, 0xB#4, 0xC#4, 0xD#4, 0xF#4]) (decode8 w) := by
  unfold decode8
  split
  case h_10 =>
    refine ⟨rfl, ?_⟩
    have := (nField w).isLt
    simp only [imp_false, List.mem_cons, List.not_mem_nil, or_false, ← BitVec.toNat_inj, BitVec.toNat_ofNat,
      Nat.reducePow, Nat.reduceMod] at *
    omega
  all_goals
    rename_i hsel
    have hn := nibble_eq_of_toNat hsel
    exact ⟨encodeXY_of_op_n hop hn, rfl, by simp [hn]⟩

theorem decodeE_answers (m : BnnnMode) {w : Word} (hop : opField w = 0xE) :
    AnswersFor m w (kkField w ∉ [0x9E#8, 0xA1#8]) (decodeE w) := by
  unfold decodeE
  split_ifs with hskp hsknp
  · exact ⟨encodeX_of_op_kk hop hskp, rfl, by simp [hskp]⟩
  · exact ⟨encodeX_of_op_kk hop hsknp, rfl, by simp [hsknp]⟩
  · exact ⟨rfl, by simp [hskp, hsknp]⟩

theorem decodeF_answers (m : BnnnMode) {w : Word} (hop : opField w = 0xF) :
    AnswersFor m w (kkField w ∉ [0x07#8, 0x0A#8, 0x15#8, 0x18#8, 0x1E#8, 0x29#8, 0x33#8, 0x55#8, 0x65#8])
      (decodeF w) := by
  unfold decodeF
  iterate 9
    split
    · next hkk => exact ⟨encodeX_of_op_kk hop hkk, rfl, by simp [hkk]⟩
  exact ⟨rfl, by simp [*]⟩

/-- Families 0x5 and 0x9, whose low nibble must be zero (R74, R76). -/
theorem zeroNibble_answers {m : BnnnMode} {w : Word} {i : Instr} (hi : nField w = 0 → encode i = w)
    (hwf : i.wellFormed m = true) :
    AnswersFor m w (nField w ≠ 0) (if nField w = 0#4 then .ok i else .error (.unknownOpcode w)) := by
  split
  · next hn => exact ⟨hi hn, hwf, not_not_intro hn⟩
  · next hn => exact ⟨rfl, hn⟩

/-- Family 0xB, which exists in one mode only (R79). -/
theorem jpV0_answers (m : BnnnMode) {w : Word} (hop : opField w = 0xB) :
    AnswersFor m w (m = .fault)
      (if m = .jumpV0 then .ok (.jpV0 (nnnField w)) else .error (.unknownOpcode w)) := by
  cases m with
  | fault => exact ⟨rfl, rfl⟩
  | jumpV0 => exact ⟨encodeA_of_op hop, rfl, by simp⟩

/-- An illegal word may be described in two ways. -/
theorem AnswersFor.congr {m : BnnnMode} {w : Word} {p q : Prop} {r : Except DecodeError Instr}
    (h : AnswersFor m w p r) (hpq : p ↔ q) : AnswersFor m w q r := propext hpq ▸ h

/-- What the decoder answers on every word, family by family (R76, R77): case `h_k` is family `k - 1`, and the cases taken
together are the formats A, XK and XY. -/
theorem decode_answers (m : BnnnMode) (w : Word) : AnswersFor m w (IllegalWord m w) (decode m w) := by
  unfold decode
  split
  case h_17 =>
    have := (opField w).isLt
    simp only [imp_false] at *
    omega
  all_goals
    rename_i hsel
    have hop := nibble_eq_of_toNat hsel
  case h_1 => exact (decode0_answers m w).congr (by simp [IllegalWord, hop])
  case h_2 | h_3 | h_11 => exact ⟨encodeA_of_op hop, rfl, by simp [IllegalWord, hop]⟩
  case h_4 | h_5 | h_7 | h_8 | h_13 => exact ⟨encodeXK_of_op hop, rfl, by simp [IllegalWord, hop]⟩
  case h_6 | h_10 =>
    refine (zeroNibble_answers (fun hn => ?_) rfl).congr (by simp [IllegalWord, hop])
    exact encodeXY_of_op_n hop hn
  case h_9 => exact (decode8_answers m hop).congr (by simp [IllegalWord, hop])
  case h_12 => exact (jpV0_answers m hop).congr (by simp [IllegalWord, hop])
  case h_14 => exact ⟨encodeXY_of_op_n hop rfl, rfl, by simp [IllegalWord, hop]⟩
  case h_15 => exact (decodeE_answers m hop).congr (by simp [IllegalWord, hop])
  case h_16 => exact (decodeF_answers m hop).congr (by simp [IllegalWord, hop])

/-- The decoder answers with an instruction only where the word is legal, and then the word is the instruction's. -/
theorem of_decode_ok {m : BnnnMode} {w : Word} {i : Instr} (h : decode m w = .ok i) :
    encode i = w ∧ i.wellFormed m = true ∧ ¬ IllegalWord m w := by
  have hw := decode_answers m w
  rwa [h] at hw

/-- The decoder refuses a word only as an unknown opcode, and only where the word is illegal. -/
theorem of_decode_error {m : BnnnMode} {w : Word} {e : DecodeError} (h : decode m w = .error e) :
    e = .unknownOpcode w ∧ IllegalWord m w := by
  have hw := decode_answers m w
  rwa [h] at hw

/-- Settles O5: the word of the instruction the decoder answers with, family by family (`decode_answers`). -/
theorem encodeOfDecode : Obligations.EncodeOfDecode := by
  intro m w i h
  obtain ⟨hword, hwf, -⟩ := of_decode_ok h
  exact ⟨hword, hwf⟩

/-! ## The opcode map -/

theorem matchesRow_iff (w : Word) (r : Word × Word) : matchesRow w r = true ↔ w &&& r.1 = r.2 := decide_eq_true_iff

/-- A word has the row of the instruction it decodes to. -/
theorem matchesRow_of_decode_ok {m : BnnnMode} {w : Word} {i : Instr} (h : decode m w = .ok i) :
    i.maskMatch ∈ opcodeRows ∧ matchesRow w i.maskMatch = true := by
  obtain ⟨rfl, -, -⟩ := of_decode_ok h
  obtain ⟨hmatch, hrow⟩ := Laws.MatchesTableRow.ofInstr i
  exact ⟨hrow, (matchesRow_iff _ _).2 hmatch⟩

/-- Two rows that share a word agree on the bits both masks keep. -/
theorem agree_of_matchesRow {w : Word} {r r' : Word × Word} (h : matchesRow w r = true) (h' : matchesRow w r' = true) :
    r.2 &&& r'.1 = r'.2 &&& r.1 := by
  rw [← (matchesRow_iff w r).1 h, ← (matchesRow_iff w r').1 h', BitVec.and_assoc, BitVec.and_assoc,
    BitVec.and_comm r.1]

/-- No two rows of the map agree on the bits both masks keep. -/
theorem opcodeRows_pairwise_differ : opcodeRows.Pairwise fun r r' => r.2 &&& r'.1 ≠ r'.2 &&& r.1 := by decide

/-- No word has two rows (R75). -/
theorem length_matchingRows_le_one (w : Word) : (opcodeRows.filter (matchesRow w)).length ≤ 1 := by
  have hdiffer := opcodeRows_pairwise_differ.filter (matchesRow w)
  match hrows : opcodeRows.filter (matchesRow w) with
  | [] => simp
  | [_] => simp
  | r :: r' :: rest =>
    have hr : matchesRow w r = true := List.of_mem_filter (l := opcodeRows) (by simp [hrows])
    have hr' : matchesRow w r' = true := List.of_mem_filter (l := opcodeRows) (by simp [hrows])
    rw [hrows] at hdiffer
    exact absurd (agree_of_matchesRow hr hr') (List.rel_of_pairwise_cons hdiffer (by simp))

/-- Settles O6: the rows differ pairwise where both masks look, and a word that decodes has its instruction's row. -/
theorem opcodeMapUnambiguous : Obligations.OpcodeMapUnambiguous := by
  refine fun w => ⟨length_matchingRows_le_one w, fun m i h => matchesRow_of_decode_ok h, fun m hnone => ?_⟩
  cases h : decode m w with
  | ok i =>
    obtain ⟨hrow, hmatch⟩ := matchesRow_of_decode_ok h
    exact absurd hmatch (by simp [hnone _ hrow])
  | error e => rw [(of_decode_error h).1]

/-! ## The illegal words -/

theorem decode_eq_error_iff (m : BnnnMode) (w : Word) : decode m w = .error (.unknownOpcode w) ↔ IllegalWord m w := by
  cases h : decode m w with
  | ok i => simp [(of_decode_ok h).2.2]
  | error e => simp [of_decode_error h]

theorem opField_nibbles (op x y n : Nibble) : opField (op ++ x ++ y ++ n) = op :=
  opField_encodeXY op n x.toFin y.toFin

theorem nField_nibbles (op x y n : Nibble) : nField (op ++ x ++ y ++ n) = n :=
  nField_encodeXY op n x.toFin y.toFin

theorem kkField_nibbles (op x y n : Nibble) : kkField (op ++ x ++ y ++ n) = y ++ n := by
  have := n.isLt
  have := y.isLt
  apply BitVec.eq_of_toNat_eq
  rw [toNat_kkField, toNat_nibbles, toNat_append_lt]
  omega

/-! ## Words of the spec -/

/-- Settles O3: eleven closed instances of the decoder. -/
theorem specWordsDecode : Obligations.SpecWordsDecode := by
  unfold Obligations.SpecWordsDecode
  decide

end Sys2Proof

namespace Sys2Proof.Machine

/-! ## The step that fetches an illegal word -/

/-- The step that fetches an illegal word writes the record of R232 and nothing else (R104, R234). -/
theorem step_of_decode_wordAtPc_error {s : State} {e : DecodeError} (hf : s.fault = none)
    (hb : inBounds s.pc s.progLen = true) (hd : decode s.cfg.bnnnMode (wordAtPc s) = .error e) :
    step s = .next { s with fault := some ⟨.unknownOpcode, s.pc, some (wordAtPc s), .empty⟩ } := by
  have hw : s.fetchWord = wordAtPc s := s.fetchWord_eq
  rw [← hw] at hd
  rw [step_unknownOpcode hf hb hd, ← hw]
  rfl

/-- Settles O7: `decode_eq_error_iff` on the nibbles of the word, and the step that fetches an illegal word. -/
theorem illegalWords : Obligations.IllegalWords := by
  refine ⟨?_, fun s hf hlo hhi hd => ?_⟩
  · rintro m op x y n _ rfl
    rw [decode_eq_error_iff, IllegalWord, opField_nibbles, nField_nibbles, kkField_nibbles]
  · have hb := (inBounds_iff s.pc s.progLen).2 ⟨hlo, hhi⟩
    exact ⟨_, step_of_decode_wordAtPc_error hf hb hd, rfl, rfl, rfl, rfl, rfl⟩

end Sys2Proof.Machine
end

section
/-! The step cycle (spec 40_step_cycle.md R100–R112): what a step is in terms of `exec`, the bounds check, the halted core;
that every instruction answers, with the `pc` of R108 or the entry of a fault; and the invariant under host actions. -/

namespace Sys2Proof.Machine

/-! ## Where an instruction goes -/

/-- The outcome `o` of an instruction in `s` is a next state: the entry of a fault, or a state whose `pc` meets `P`. -/
def GoesTo (s : State) (P : Word → Prop) (o : Host.Outcome State Fault Refusal) : Prop :=
  ∃ t, o = .next t ∧ (RaisedFrom s t ∨ P t.pc)

theorem GoesTo.next {s t : State} {P : Word → Prop} (h : P t.pc) : GoesTo s P (.next t) := ⟨t, rfl, .inr h⟩

theorem GoesTo.raise {s : State} {P : Word → Prop} {kind : FaultKind} {info : FaultInfo} (hkind : kind ≠ .outOfBounds)
    (hinfo : (s.faultRecord kind info).infoFits) : GoesTo s P (s.raise kind info) :=
  ⟨_, rfl, .inl ⟨kind, info, hkind, hinfo, rfl⟩⟩

/-- A checked store advances, or raises MemoryAccessFault (R56, R57). -/
theorem storeChecked_goesTo (s : State) (base : Nat) (bs : List Byte) :
    GoesTo s (· = s.pc + 2) (s.storeChecked base bs) := by
  unfold State.storeChecked
  split
  · exact .raise (by decide) ⟨_, _, rfl⟩
  · exact .next rfl

/-- A checked block read advances, or raises MemoryAccessFault (R56). -/
theorem loadChecked_goesTo (s : State) (base n : Nat) {use : List Byte → State} (huse : ∀ bs, (use bs).pc = s.pc) :
    GoesTo s (· = s.pc + 2) (s.loadChecked base n use) := by
  unfold State.loadChecked
  split
  · exact .raise (by decide) ⟨_, _, rfl⟩
  · exact .next (congrArg (· + 2) (huse _))

/-- The `pc` of a skip on a decided condition (R123). -/
theorem skipIf_decide_pc (s : State) (p : Prop) [Decidable p] :
    (s.skipIf (decide p)).pc = if p then s.pc + 4 else s.pc + 2 := by
  simp only [State.skipIf_pc, decide_eq_true_eq]

/-- RET goes behind the CALL it returns to, or raises StackUnderflowFault (R120). -/
theorem exec_ret_goesTo (s : State) : GoesTo s (NextPc .ret s) (exec .ret s) := by
  rcases sp_eq_zero_or_succ s with h0 | ⟨j, hj⟩
  · rw [exec_ret_empty s h0]
    exact .raise (by decide) (congrArg FaultInfo.depth h0)
  · rw [exec_ret_of_succ s j hj]
    exact .next ⟨j, hj, rfl⟩

/-- The 12-bit target as a number (R73). -/
theorem zextAddr_eq_ofNat (nnn : Addr12) : zextAddr nnn = BitVec.ofNat 16 nnn.toNat :=
  (BitVec.ofNat_toNat 16 nnn).symm

/-- CALL goes to its target, or raises StackOverflowFault (R122). -/
theorem exec_call_goesTo (s : State) (nnn : Addr12) :
    GoesTo s (NextPc (.call nnn) s) (exec (.call nnn) s) := by
  rcases sp_eq_full_or_lt s with hfull | hlt
  · rw [exec_call_full s nnn hfull]
    exact .raise (by decide) (congrArg FaultInfo.depth hfull)
  · rw [exec_call_of_lt s nnn hlt]
    exact .next (zextAddr_eq_ofNat nnn)

/-- JP V0, addr goes to the sum, or is illegal on the machine (R127, R79). -/
theorem exec_jpV0_goesTo (s : State) (nnn : Addr12) :
    GoesTo s (NextPc (.jpV0 nnn) s) (exec (.jpV0 nnn) s) := by
  simp only [exec, execJpV0]
  split
  · refine .next ?_
    simp only [NextPc, State.setPc_pc, BitVec.ofNat_add, BitVec.ofNat_toNat, zextAddr, zextByte, State.readV_eq]
  · exact .raise (by decide) rfl

/-- The value of `V[x]` is the index of a key, or it is above 15. -/
theorem keyIndex_cases (b : Byte) : (∃ k : Fin 16, b.toNat = k.val) ∨ 15 < b.toNat := by
  rcases Nat.lt_or_ge b.toNat 16 with h | h
  · exact .inl ⟨⟨b.toNat, h⟩, rfl⟩
  · exact .inr h

/-- SKP skips by the key its register names, or raises KeyIndexFault (R213, R217). -/
theorem exec_skp_goesTo (s : State) (x : Reg) : GoesTo s (NextPc (.skp x) s) (exec (.skp x) s) := by
  simp only [exec, execSkp, State.readV_eq]
  rcases keyIndex_cases s.V[x] with ⟨k, hk⟩ | hhigh
  · rw [State.key_of_lt s _ k hk]
    exact .next ⟨k, hk, rfl⟩
  · rw [State.key_none s _ hhigh]
    exact .raise (by decide) ⟨_, rfl, hhigh⟩

/-- SKNP skips by the key its register names, or raises KeyIndexFault (R214, R217). -/
theorem exec_sknp_goesTo (s : State) (x : Reg) : GoesTo s (NextPc (.sknp x) s) (exec (.sknp x) s) := by
  simp only [exec, execSknp, State.readV_eq]
  rcases keyIndex_cases s.V[x] with ⟨k, hk⟩ | hhigh
  · rw [State.key_of_lt s _ k hk]
    refine .next ⟨k, hk, ?_⟩
    simp only [State.skipIf_pc]
    cases s.keys[k] <;> rfl
  · rw [State.key_none s _ hhigh]
    exact .raise (by decide) ⟨_, rfl, hhigh⟩

/-- The scan finds a key when one is pressed (R215). -/
theorem firstKey_isSome_iff (s : State) : s.firstKey.isSome = true ↔ ∃ k : Fin 16, s.keys[k] = true := by
  simp only [State.firstKey, List.findIdx?_isSome, List.any_eq_true, id_eq, exists_eq_right, Vector.mem_toList_iff,
    Vector.mem_iff_getElem]
  exact ⟨fun ⟨i, hi, h⟩ => ⟨⟨i, hi⟩, h⟩, fun ⟨k, h⟩ => ⟨k, k.isLt, h⟩⟩

/-- LD Vx, K advances when a key is pressed, and else stays (R215, R216). -/
theorem exec_ldVxK_goesTo (s : State) (x : Reg) : GoesTo s (NextPc (.ldVxK x) s) (exec (.ldVxK x) s) := by
  have hkey := firstKey_isSome_iff s
  simp only [exec, execLdVxK]
  cases hfirst : s.firstKey with
  | some k => exact .next (if_pos (hkey.1 (by rw [hfirst]; rfl))).symm
  | none => exact .next (if_neg fun h => by simpa [hfirst] using hkey.2 h).symm

/-- Every instruction in every state enters a fault or goes where R108 says. -/
theorem exec_goesTo (i : Instr) (s : State) : GoesTo s (NextPc i s) (exec i s) := by
  cases i with
  | ret => exact exec_ret_goesTo s
  | call nnn => exact exec_call_goesTo s nnn
  | jpV0 nnn => exact exec_jpV0_goesTo s nnn
  | jp nnn => exact .next (zextAddr_eq_ofNat nnn)
  | seByte x kk | seReg x y => exact .next (skipIf_decide_pc s _)
  | sneByte x kk | sneReg x y => exact .next ((skipIf_decide_pc s _).trans (ite_not ..))
  | skp x => exact exec_skp_goesTo s x
  | sknp x => exact exec_sknp_goesTo s x
  | ldVxK x => exact exec_ldVxK_goesTo s x
  | drw x y n => exact loadChecked_goesTo s _ _ fun _ => rfl
  | loadRegs x => exact loadChecked_goesTo s _ _ fun _ => rfl
  | ldB x => exact storeChecked_goesTo s _ _
  | storeRegs x => exact storeChecked_goesTo s _ _
  | addReg x y | subReg x y | shr x y | subnReg x y | shl x y =>
    exact .next (congrArg (· + 2) (State.writeFlagged_pc s x y _ _))
  | _ => exact .next rfl

/-- The record of a fault entered at execute, field by field (R232). -/
theorem RaisedFrom.record {s t : State} (h : RaisedFrom s t) : ∃ r : FaultRecord, t = { s with fault := some r } ∧
    r.kind ≠ .outOfBounds ∧ r.pc = s.pc ∧ r.opcode = some (wordAtPc s) ∧ r.infoFits := by
  obtain ⟨kind, info, hkind, hinfo, rfl⟩ := h
  have hword : s.fetchWord = wordAtPc s := s.fetchWord_eq
  exact ⟨s.faultRecord kind info, rfl, hkind, rfl, hword ▸ s.faultOpcode_of_ne hkind, hinfo⟩

/-- Settles O9: `exec_goesTo` for the answer and its `pc`, `exec_cases` for the frame. -/
theorem everyInstructionAnswers : Obligations.EveryInstructionAnswers := by
  intro i s
  obtain ⟨t, ht, hgoes⟩ := exec_goesTo i s
  refine ⟨t, ht, ?_⟩
  rcases hgoes with hraised | hpc
  · exact .inr hraised.record
  · rcases exec_cases ht with hraised | heffect
    · exact .inr hraised.record
    · exact .inl ⟨hpc, heffect.fault, heffect⟩

/-! ## The step -/

theorem EffectFrom.tick {s t : State} (h : EffectFrom s t) : t.tick = s.tick := by
  unfold EffectFrom at h
  rw [h]

theorem EffectFrom.draws {s t : State} (h : EffectFrom s t) : t.draws = s.draws := by
  unfold EffectFrom at h
  rw [h]

/-- The end of the step whose instruction took its own effect on `s`, field by field: one decrement of each timer if
`tick` is 1, and the next inputs (R109). -/
theorem EffectFrom.commit_eq {s t : State} (he : EffectFrom s t) (ht : t.fault = none) : t.commit = { t with
    DT := if s.tick then decrementTimer t.DT else t.DT
    ST := if s.tick then decrementTimer t.ST else t.ST
    keys := Config.freeKeys s.draws
    tick := Config.freeTick s.draws
    rnd := Config.freeRnd s.draws
    draws := s.draws + 1
    loadOpen := false } := by
  rw [State.commit_running ht, ← he.tick, ← he.draws]
  rfl

/-- Settles O8: the step is `exec` and `commit`, which ticks and draws inputs only where no fault was raised. -/
theorem stepRunsDecodedInstruction : Obligations.StepRunsDecodedInstruction := by
  intro s t i hf hlo hhi hd hexec
  have hword : s.fetchWord = wordAtPc s := s.fetchWord_eq
  have hstep : step s = .next t.commit := step_run hf ((inBounds_iff _ _).2 ⟨hlo, hhi⟩) (hword ▸ hd) hexec
  refine ⟨fun ht => ?_, fun ht => ?_⟩
  · rw [hstep, (exec_effect hexec ht).commit_eq ht]
    rfl
  · obtain ⟨r, hr⟩ := Option.ne_none_iff_exists'.1 ht
    rw [hstep, State.commit_raised hr]

/-- A step in bounds raises no OutOfBoundsFault (R102). -/
theorem step_inBounds_kind {s t : State} {r : FaultRecord} (hb : inBounds s.pc s.progLen = true)
    (h : step s = .next t) (hr : t.fault = some r) : r.kind ≠ .outOfBounds := by
  obtain ⟨hf, ⟨hout, -⟩ | ⟨-, -, rfl⟩ | ⟨-, i, u, -, -, ⟨⟨kind, info, hkind, -, rfl⟩, rfl⟩ | ⟨he, rfl⟩⟩⟩ := step_cases h
  · exact absurd (hb.symm.trans hout) Bool.false_ne_true.symm
  · obtain rfl := Option.some.inj hr
    exact FaultKind.noConfusion
  · obtain rfl := Option.some.inj hr
    exact hkind
  · exact absurd ((he.fault.trans hf).symm.trans hr) (Option.some_ne_none r).symm

/-- Settles O10: the step out of bounds is fault entry, and `step_inBounds_kind`. -/
theorem boundsCheck : Obligations.BoundsCheck := by
  refine fun s hf => ⟨fun hout => ?_, fun hin t r h hr => ?_⟩
  · have hb : inBounds s.pc s.progLen = false := by
      rwa [← Bool.not_eq_true, inBounds_iff]
    exact ⟨s.faultRecord .outOfBounds .empty, step_outOfBounds hf hb, rfl, rfl, rfl, rfl, rfl⟩
  · exact step_inBounds_kind ((inBounds_iff _ _).2 hin) h hr

/-- Settles O11: `step_halted`, since new inputs leave the record. -/
theorem haltedCoreIsStuck : Obligations.HaltedCoreIsStuck :=
  fun s _ a h => ⟨step_halted h, step_halted (s := s.setInputs a.keys a.tick a.rnd) h⟩

/-! ## The invariant under host actions -/

/-- A load keeps the invariant: its image lies above the font and inside memory, and before the first step no stack entry
and no wait depends on the image there was (R262, R264). -/
theorem State.Inv.load {s t : State} {bytes : List Byte} (hs : s.Inv) (h : s.load bytes = .next t) : t.Inv := by
  obtain ⟨hf, hopen, hlen, rfl⟩ := load_next h
  obtain ⟨hsp, hawait⟩ := hs.unstarted hopen
  exact {
    memCanonical := Memory.wf_writeBytes bytes (by omega) hs.memCanonical
    fontIntact := by
      intro c hc
      rcases Memory.mem_writeBytes_cases bytes hc with ⟨hbase, -⟩ | hold
      · omega
      · exact hs.fontIntact c hold
    stackInImage := fun j hj => absurd (hsp ▸ hj : j.val < 0) (Nat.not_lt_zero _)
    parked := fun ha => absurd (hawait.symm.trans ha) Bool.false_ne_true
    recorded := fun r hr => absurd (hf.symm.trans hr) (Option.some_ne_none r).symm
    unstarted := fun ho => absurd ho Bool.false_ne_true }

/-- New inputs keep the invariant: no clause speaks of them. -/
theorem State.Inv.setInputs {s : State} (hs : s.Inv) (keys : Vector Bool 16) (tick : Bool) (rnd : Byte) :
    (s.setInputs keys tick rnd).Inv := { hs with }

/-- `consume_frame` keeps the invariant: no clause speaks of `dirty`. -/
theorem State.Inv.consumeFrame {s : State} (hs : s.Inv) : s.consumeFrame.2.Inv := { hs with }

/-- Settles O52: action by action; a load that fails or is refused leaves the state as it was. -/
theorem invKeptByHost : Obligations.InvKeptByHost := by
  intro s a hs
  cases a with
  | load bytes =>
    simp only [HostAction.apply]
    split
    · next hload => exact hs.load hload
    · exact hs
    · exact hs
  | setInputs keys tick rnd => exact hs.setInputs keys tick rnd
  | consumeFrame => exact hs.consumeFrame

/-- Settles O53: induction over how the state was reached. -/
theorem reachableStatesMeetInv : Obligations.ReachableStatesMeetInv := by
  intro s h
  induction h with
  | created c => exact inv_create c
  | stepped _ hstep ih => exact invKeptByStep _ _ ih hstep
  | hostActed a _ ih => exact invKeptByHost _ a ih

end Sys2Proof.Machine
end

section
/-! Control flow (spec 41_control_flow.md R120–R127): the jumps and skips write `pc` only; CALL pushes its own address and
RET pops it, each raising its fault at the end of the stack; and CALL then RET comes back behind the CALL. -/

namespace Sys2Proof.Machine

/-! ## The words -/

/-- The word of an instruction is its encoding: the decoder reads it back wherever the instruction exists (R75). -/
theorem hasEncoding_encode (i : Instr) : HasEncoding i (encode i) := ⟨rfl, fun _ => decode_encode⟩

/-- A register field written by number is the encoder's (R72). -/
theorem fieldBits_eq_regBits (x : Reg) : fieldBits x = regBits x :=
  BitVec.eq_of_toNat_eq (Nat.mod_eq_of_lt x.isLt)

/-- Family 0xB is illegal on a machine with `BNNN_MODE = fault` (R79). -/
theorem decode_fault_familyB (nnn : Addr12) :
    decode .fault (encodeA 0xB nnn) = .error (.unknownOpcode (encodeA 0xB nnn)) := by
  simp [decode]

/-! ## Effects -/

/-- An instruction that sets `pc` and completes changes nothing else (R129: no check of the target). -/
theorem completes_onlyPc {i : Instr} {s : State} {p q : Word} (h : exec i s = .next (s.setPc q)) (hq : q = p) :
    Completes i s (OnlyPc p s) := ⟨s.setPc q, h, hq, rfl, fun _ => rfl⟩

/-- An instruction that enters a fault writes the record of R232, with the word at `pc` as its opcode. -/
theorem raises_of_exec {i : Instr} {s : State} {kind : FaultKind} {info : FaultInfo}
    (h : exec i s = s.raise kind info) (hkind : kind ≠ .outOfBounds) : Raises i s kind info := by
  have hword : s.fetchWord = wordAtPc s := s.fetchWord_eq
  rw [Raises, h, State.raise_eq, s.faultOpcode_of_ne hkind, hword]

/-! ## Jumps and skips -/

/-- Settles O15: the target is the address as a word. -/
theorem jumpSetsPc : Obligations.JumpSetsPc :=
  fun _ nnn => ⟨hasEncoding_encode (.jp nnn), completes_onlyPc rfl (zextAddr_eq_ofNat nnn)⟩

/-- A skip taken when `p` holds (R123, R125). -/
theorem completes_skip {i : Instr} {s : State} {p : Prop} [Decidable p]
    (h : exec i s = .next (s.skipIf (decide p))) : Completes i s (OnlyPc (if p then s.pc + 4 else s.pc + 2) s) :=
  completes_onlyPc h (skipIf_decide_pc s p)

/-- A skip taken when `p` fails (R124, R126). -/
theorem completes_skip_not {i : Instr} {s : State} {p : Prop} [Decidable p]
    (h : exec i s = .next (s.skipIf (decide ¬p))) : Completes i s (OnlyPc (if p then s.pc + 2 else s.pc + 4) s) :=
  completes_onlyPc h ((skipIf_decide_pc s _).trans (ite_not ..))

/-- Settles O16: SE skips by its condition, SNE by the negation. -/
theorem skipOnByte : Obligations.SkipOnByte := by
  intro s x kk
  rw [fieldBits_eq_regBits]
  exact ⟨hasEncoding_encode (.seByte x kk), hasEncoding_encode (.sneByte x kk), completes_skip rfl,
    completes_skip_not rfl⟩

/-- Settles O17: as O16, with the condition on two registers. -/
theorem skipOnRegister : Obligations.SkipOnRegister := by
  intro s x y
  rw [fieldBits_eq_regBits, fieldBits_eq_regBits]
  exact ⟨hasEncoding_encode (.seReg x y), hasEncoding_encode (.sneReg x y), completes_skip rfl,
    completes_skip_not rfl⟩

/-- JP V0, addr where `BNNN_MODE = jump_v0` (R127). -/
theorem exec_jpV0_of_jumpV0 {s : State} (nnn : Addr12) (h : s.cfg.bnnnMode = .jumpV0) :
    exec (.jpV0 nnn) s = .next (s.setPc (zextAddr nnn + zextByte s.V[(0 : Reg)])) := by
  simp only [exec, execJpV0, h, State.readV_eq]

/-- The target of JP V0, addr as a number (R127). -/
theorem zextAddr_add_zextByte (nnn : Addr12) (b : Byte) :
    zextAddr nnn + zextByte b = BitVec.ofNat 16 (nnn.toNat + b.toNat) := by
  rw [BitVec.ofNat_add, BitVec.ofNat_toNat, BitVec.ofNat_toNat, zextAddr, zextByte]

/-- Settles O18: the effect where the instruction exists, and where it does not, the step that fetches an illegal word. -/
theorem jumpV0ByMode : Obligations.JumpV0ByMode := by
  intro s nnn
  refine ⟨hasEncoding_encode (.jpV0 nnn), fun hmode => ?_, fun hmode hf hlo hhi hword => ?_⟩
  · exact completes_onlyPc (exec_jpV0_of_jumpV0 nnn hmode) (zextAddr_add_zextByte nnn _)
  · have hd : decode s.cfg.bnnnMode (wordAtPc s) = .error (.unknownOpcode (encodeA 0xB nnn)) := by
      rw [hmode, hword]
      exact decode_fault_familyB nnn
    rw [step_of_decode_wordAtPc_error hf ((inBounds_iff _ _).2 ⟨hlo, hhi⟩) hd, hword]

/-! ## CALL and RET -/

/-- The stack after a push, entry by entry (R24). -/
theorem getElem_stack_push (s : State) (w : Word) (h : s.sp.val < 16) (j : Fin 16) :
    (s.stack.set s.sp.val w)[j] = if j.val = s.sp.val then w else s.stack[j] := by
  simp only [Fin.getElem_fin, Vector.getElem_set, eq_comm]

/-- Settles O19: `exec_call_of_lt` below the capacity, `exec_call_full` at it. -/
theorem callPushesItsAddress : Obligations.CallPushesItsAddress := by
  intro s nnn
  refine ⟨hasEncoding_encode (.call nnn), fun hlt => ?_, fun hfull => ?_⟩
  · exact ⟨_, exec_call_of_lt s nnn hlt, rfl, zextAddr_eq_ofNat nnn, getElem_stack_push s s.pc hlt, rfl, fun _ => rfl⟩
  · exact raises_of_exec (hfull ▸ exec_call_full s nnn hfull) (by decide)

/-- Settles O20: `exec_ret_of_succ` with an entry on the stack, `exec_ret_empty` with none. -/
theorem returnPopsAndAdvances : Obligations.ReturnPopsAndAdvances := by
  intro s
  refine ⟨hasEncoding_encode .ret, fun j hj => ?_, fun hempty => ?_⟩
  · exact ⟨_, exec_ret_of_succ s j hj, rfl, rfl, rfl, fun _ => rfl⟩
  · exact raises_of_exec (hempty ▸ exec_ret_empty s hempty) (by decide)

/-- Settles O21: RET pops the entry that CALL pushed, at the depth before the CALL. -/
theorem callThenReturn : Obligations.CallThenReturn := by
  intro s nnn hlt
  have hpush := getElem_stack_push s s.pc hlt
  refine ⟨_, _, exec_call_of_lt s nnn hlt, exec_ret_of_succ _ ⟨s.sp.val, hlt⟩ rfl, ?_, rfl, rfl, fun j hj => ?_⟩
  · exact congrArg (· + 2) ((hpush ⟨s.sp.val, hlt⟩).trans (if_pos rfl))
  · exact (hpush j).trans (if_neg hj)

end Sys2Proof.Machine
end

section
/-! The 8-bit ALU (spec 42_alu.md R140–R152): the operations without a flag write one register; the five with a flag write
`V[x]` and VF in the order of `VF_DEST_ORDER`, which matters only where VF is an operand. -/

namespace Sys2Proof.Machine

/-! ## The words -/

/-- A word equal to the encoding of an instruction is its word. -/
theorem hasEncoding_of_encode_eq {i : Instr} {w : Word} (h : encode i = w) : HasEncoding i w := h ▸ hasEncoding_encode i

/-- An instruction of format XY has the word of its family, registers and sub-selector (R71, R72). -/
theorem hasEncoding_XY {i : Instr} {op n : Nibble} {x y : Reg} (h : encode i = encodeXY op x y n) :
    HasEncoding i (op ++ fieldBits x ++ fieldBits y ++ n) := by
  rw [fieldBits_eq_regBits, fieldBits_eq_regBits]
  exact hasEncoding_of_encode_eq h

/-- An instruction of format XK has the word of its family, register and immediate byte (R71, R72). -/
theorem hasEncoding_XK {i : Instr} {op : Nibble} {x : Reg} {kk : Byte} (h : encode i = encodeXK op x kk) :
    HasEncoding i (op ++ fieldBits x ++ kk) := by
  rw [fieldBits_eq_regBits]
  exact hasEncoding_of_encode_eq h

/-! ## Operations that write one register -/

/-- An instruction that writes one register and advances changes nothing else. -/
theorem completes_onlyReg {i : Instr} {s : State} {x : Reg} {v : Byte} (h : exec i s = .next (s.writeV x v).advance) :
    Completes i s (OnlyReg x v s) :=
  ⟨(s.writeV x v).advance, h, State.readV_writeV_self s x v, fun _ hq => State.readV_writeV_other s v hq, rfl, rfl,
    fun _ => rfl⟩

/-- Settles O22: both write one register, without a flag. -/
theorem loadByteAndCopy : Obligations.LoadByteAndCopy :=
  fun _ _ _ _ => ⟨hasEncoding_XK rfl, completes_onlyReg rfl, hasEncoding_XY rfl, completes_onlyReg rfl⟩

/-- The truncated sum is the sum modulo 256 (R142). -/
theorem addResult_eq_ofNat_mod (a b : Byte) : addResult a b = BitVec.ofNat 8 ((a.toNat + b.toNat) % 256) :=
  BitVec.eq_of_toNat_eq (by simp [addResult])

/-- Settles O23: the one register written holds the sum modulo 256. -/
theorem addByteWithoutCarry : Obligations.AddByteWithoutCarry := by
  intro s x kk
  rw [← addResult_eq_ofNat_mod]
  exact ⟨hasEncoding_XK rfl, completes_onlyReg rfl⟩

/-- Settles O24: each operation writes one register with the word operation of the two, which acts bit by bit. -/
theorem bitwiseOperations : Obligations.BitwiseOperations := by
  intro s x y
  refine ⟨hasEncoding_XY rfl, hasEncoding_XY rfl, hasEncoding_XY rfl, _, _, _, completes_onlyReg rfl,
    completes_onlyReg rfl, completes_onlyReg rfl, fun k _ => ?_⟩
  exact ⟨BitVec.getLsbD_or, BitVec.getLsbD_and, BitVec.getLsbD_xor⟩

/-- Settles O25: the one register written holds the AND of the two bytes. -/
theorem randomByteUnderMask : Obligations.RandomByteUnderMask := by
  refine fun s x kk r => ⟨hasEncoding_XK rfl, ?_⟩
  rintro rfl
  exact ⟨s.rnd &&& kk, completes_onlyReg rfl, fun k _ => BitVec.getLsbD_and⟩

/-! ## Results and flags as numbers -/

/-- A flag that is a condition is 1 where it holds (R21). -/
theorem flagByte_decide (p : Prop) [Decidable p] : flagByte (decide p) = if p then 1 else 0 := by
  simp only [flagByte, decide_eq_true_eq]

/-- A flag that is a bit of a byte is the binary digit of its value (R149, R151). -/
theorem flagByte_getLsbD (a : Byte) (k : Nat) : flagByte (a.getLsbD k) = BitVec.ofNat 8 (a.toNat / 2 ^ k % 2) := by
  rw [BitVec.getLsbD, Nat.testBit_eq_decide_div_mod_eq, flagByte_decide]
  rcases Nat.mod_two_eq_zero_or_one (a.toNat / 2 ^ k) with h | h <;> simp [h]

/-- ADD: the truncated sum is the sum of bytes (R147). -/
theorem addResult_eq (a b : Byte) : addResult a b = a + b := (BitVec.add_def a b).symm

/-- SUB: the truncated difference is the difference of bytes (R148). -/
theorem subResult_eq (a b : Byte) : subResult a b = a - b := by
  have := b.isLt
  apply BitVec.eq_of_toNat_eq
  rw [subResult, BitVec.toNat_ofNat, BitVec.toNat_sub]
  omega

/-- SUB: the flag is the strict order of bytes (R148). -/
theorem flagByte_subFlag (a b : Byte) : flagByte (subFlag a b) = if b < a then 1 else 0 := flagByte_decide _

/-- SHR: the shifted byte is the half (R149). -/
theorem shrResult_eq (a b : Byte) : shrResult a b = BitVec.ofNat 8 (a.toNat / 2) := by
  have := a.isLt
  apply BitVec.eq_of_toNat_eq
  rw [shrResult, BitVec.toNat_ushiftRight, Nat.shiftRight_eq_div_pow, BitVec.toNat_ofNat]
  omega

/-- SHR: the bit shifted out is the remainder (R149). -/
theorem flagByte_shrFlag (a b : Byte) : flagByte (shrFlag a b) = BitVec.ofNat 8 (a.toNat % 2) := by
  rw [shrFlag, flagByte_getLsbD, Nat.pow_zero, Nat.div_one]

/-- SHL: the shifted byte is the double, truncated (R151). -/
theorem shlResult_eq (a b : Byte) : shlResult a b = BitVec.ofNat 8 (2 * a.toNat) := by
  apply BitVec.eq_of_toNat_eq
  rw [shlResult, BitVec.toNat_shiftLeft, Nat.shiftLeft_eq, BitVec.toNat_ofNat, Nat.pow_one, Nat.mul_comm]

/-- SHL: the bit shifted out is 1 where the byte is at least 128 (R151). -/
theorem flagByte_shlFlag (a b : Byte) : flagByte (shlFlag a b) = BitVec.ofNat 8 (a.toNat / 128) := by
  have hdigit : a.toNat / 2 ^ 7 % 2 = a.toNat / 128 := by
    have := a.isLt
    omega
  rw [shlFlag, flagByte_getLsbD, hdigit]

/-! ## Operations that write a flag -/

/-- An instruction that is the flag writer with result `r` and flag `f` has the effect of R140 for the operands' values
of `r` and `f`. -/
theorem completes_flaggedWrite {i : Instr} {s : State} {x y : Reg} {r r' f' : Byte → Byte → Byte}
    {f : Byte → Byte → Bool} (h : exec i s = .next (s.writeFlagged x y r f).advance) (hr : ∀ a b, r a b = r' a b)
    (hf : ∀ a b, flagByte (f a b) = f' a b) : Completes i s (FlaggedWrite x y r' f' s) := by
  obtain rfl : r = r' := funext₂ hr
  obtain rfl : (fun a b => flagByte (f a b)) = f' := funext₂ hf
  refine ⟨_, h, ?_, fun q hx hVF => State.writeFlagged_other s x y q r f hx hVF, ?_, writeFlagged_advance_eq s x y r f,
    fun a => ?_⟩
  · split
    · next ho => exact State.writeFlagged_flagLast s x y r f ho
    · next ho => exact State.writeFlagged_resultLast s x y r f ho
    · next ho => exact State.writeFlagged_docSequential s x y r f ho
  · rw [State.advance_pc, State.writeFlagged_pc]
  · rw [writeFlagged_advance_eq]
    rfl

/-- Settles O26: the flag writer with the sum and the carry out. -/
theorem addSetsCarry : Obligations.AddSetsCarry :=
  fun _ _ _ => ⟨hasEncoding_XY rfl, completes_flaggedWrite rfl addResult_eq fun _ _ => flagByte_decide _⟩

/-- Settles O27: the flag writer with the difference and the strict order. -/
theorem subtractSetsStrictGreater : Obligations.SubtractSetsStrictGreater :=
  fun _ _ _ => ⟨hasEncoding_XY rfl, completes_flaggedWrite rfl subResult_eq flagByte_subFlag⟩

/-- Settles O29: as O27, with the operands exchanged. -/
theorem reverseSubtract : Obligations.ReverseSubtract :=
  fun _ _ _ => ⟨hasEncoding_XY rfl,
    completes_flaggedWrite rfl (fun a b => subResult_eq b a) fun a b => flagByte_subFlag b a⟩

/-- SHR ignores `y` (R149). -/
theorem exec_shr_eq_self (s : State) (x y : Reg) : exec (.shr x y) s = exec (.shr x x) s := rfl

/-- SHL ignores `y` (R151). -/
theorem exec_shl_eq_self (s : State) (x y : Reg) : exec (.shl x y) s = exec (.shl x x) s := rfl

/-- Settles O28: the flag writer on `V[x]` alone, with the half and the remainder. -/
theorem shiftRight : Obligations.ShiftRight :=
  fun s x y => ⟨hasEncoding_XY rfl, completes_flaggedWrite (exec_shr_eq_self s x y) shrResult_eq flagByte_shrFlag⟩

/-- Settles O30: the flag writer on `V[x]` alone, with the double and the bit shifted out. -/
theorem shiftLeft : Obligations.ShiftLeft :=
  fun s x y => ⟨hasEncoding_XY rfl, completes_flaggedWrite (exec_shl_eq_self s x y) shlResult_eq flagByte_shlFlag⟩

/-! ## The order of the two writes -/

/-- The same machine with another `VF_DEST_ORDER`. -/
def State.withDestOrder (s : State) (o : VfDestOrder) : State := { s with cfg := { s.cfg with vfDestOrder := o } }

/-- Away from VF the flag writer is one pair of register writes, whatever the order: the two registers differ, and the
flag is no operand of the result (R140). -/
theorem writeFlagged_of_ne_VF (s : State) {x y : Reg} (hx : x ≠ VF) (hy : y ≠ VF) (r : Byte → Byte → Byte)
    (f : Byte → Byte → Bool) :
    s.writeFlagged x y r f = (s.writeV VF (flagByte (f s.V[x] s.V[y]))).writeV x (r s.V[x] s.V[y]) := by
  unfold State.writeFlagged
  cases s.cfg.vfDestOrder with
  | flagLast =>
    simp only [State.writeV, State.readV_eq]
    rw [Vector.set_comm _ _ (Fin.val_ne_of_ne hx)]
  | resultLast => rfl
  | docSequential => simp only [State.readV_eq, State.readV_writeV_other _ _ hx, State.readV_writeV_other _ _ hy]

/-- Away from VF the flag writer commutes with a change of the order. -/
theorem writeFlagged_withDestOrder (s : State) (o : VfDestOrder) {x y : Reg} (hx : x ≠ VF) (hy : y ≠ VF)
    (r : Byte → Byte → Byte) (f : Byte → Byte → Bool) :
    (s.withDestOrder o).writeFlagged x y r f = (s.writeFlagged x y r f).withDestOrder o := by
  rw [writeFlagged_of_ne_VF _ hx hy, writeFlagged_of_ne_VF _ hx hy]
  rfl

/-- The five flag-writing operations are the flag writer, each with its result and flag (R147–R151). -/
theorem exec_eq_writeFlagged {i : Instr} {x y : Reg}
    (hi : i ∈ [Instr.addReg x y, .subReg x y, .shr x y, .subnReg x y, .shl x y]) :
    ∃ r f, ∀ s, exec i s = .next (s.writeFlagged x y r f).advance := by
  simp only [List.mem_cons, List.not_mem_nil, or_false] at hi
  rcases hi with rfl | rfl | rfl | rfl | rfl
  · exact ⟨addResult, addFlag, fun _ => rfl⟩
  · exact ⟨subResult, subFlag, fun _ => rfl⟩
  · exact ⟨shrResult, shrFlag, fun _ => rfl⟩
  · exact ⟨subnResult, subnFlag, fun _ => rfl⟩
  · exact ⟨shlResult, shlFlag, fun _ => rfl⟩

/-- Settles O31: each operation is the flag writer, which away from VF commutes with a change of the order. -/
theorem ordersAgreeAwayFromVF : Obligations.OrdersAgreeAwayFromVF := by
  intro s t x y i o hx hy hi h
  obtain ⟨r, f, hexec⟩ := exec_eq_writeFlagged hi
  obtain rfl := Host.Outcome.next.inj ((hexec s).symm.trans h)
  calc exec i (s.withDestOrder o)
    _ = .next ((s.withDestOrder o).writeFlagged x y r f).advance := hexec _
    _ = .next ((s.writeFlagged x y r f).withDestOrder o).advance := by rw [writeFlagged_withDestOrder s o hx hy]

end Sys2Proof.Machine
end

section
/-! The display (spec 43_display.md R170–R178): CLS and LD F, Vx by their one write; DRW pixel by pixel, the sprite's set
bits as the pixels they land on; a draw undone by drawing again; and the frame taken by the host. -/

namespace Sys2Proof.Machine

/-! ## CLS and LD F, Vx -/

/-- Settles O32: every pixel of the shown frame is blank. -/
theorem clearScreen : Obligations.ClearScreen :=
  fun s => ⟨hasEncoding_encode .cls, (s.show Framebuffer.blank).advance, rfl, Framebuffer.pixel_blank, rfl, rfl, rfl,
    fun _ => rfl⟩

/-- An instruction that writes `I` and advances changes nothing else. -/
theorem completes_onlyIndex {i : Instr} {s : State} {v w : Word} (h : exec i s = .next (s.writeI v).advance)
    (hv : v = w) : Completes i s (OnlyIndex w s) := ⟨(s.writeI v).advance, h, hv, rfl, rfl, fun _ => rfl⟩

/-- The glyph address as a number: five times the value, not masked (R177). -/
theorem glyphAddress_eq_ofNat (v : Byte) : glyphAddress v = BitVec.ofNat 16 (5 * v.toNat) := by
  rw [glyphAddress, zextByte, Nat.mul_comm, BitVec.ofNat_mul, BitVec.ofNat_toNat]
  rfl

/-- Settles O36: the one write to `I` is of the glyph address. -/
theorem fontGlyphAddress : Obligations.FontGlyphAddress :=
  fun _ _ => ⟨hasEncoding_XK rfl, completes_onlyIndex rfl (glyphAddress_eq_ofNat _)⟩

/-! ## DRW -/

/-- DRW whose sprite lies in memory draws the bytes at `I` (R172, R175). -/
theorem exec_drw_inside {s : State} {n : Nibble} (x y : Reg) (h : n.toNat = 0 ∨ s.I.toNat + n.toNat ≤ 4096) :
    exec (.drw x y n) s = .next (s.drawSprite x y (s.readBytes s.I.toNat n.toNat)).advance :=
  State.loadChecked_ok s (s.drawSprite x y) h

/-- The pixels a set bit of the sprite lands on, in the words of the blit (R170, R172, R173). -/
theorem spriteCovers_iff_covers {s : State} {x y : Reg} {n : Nibble} {px : Fin 64} {py : Fin 32} :
    SpriteCovers s x y n px py ↔ Covers s.V[x].toNat s.V[y].toNat (s.readBytes s.I.toNat n.toNat) px py := by
  simp only [SpriteCovers, Covers, lands, length_readBytes, getElem_readBytes, Fin.ext_iff, Fin.ofNat_eq_cast,
    Fin.val_natCast]
  constructor
  · rintro ⟨row, col, hrow, hcol, hbit, hx, hy⟩
    exact ⟨row, hrow, hy, col, hcol, hbit, hx⟩
  · rintro ⟨row, hrow, hy, col, hcol, hbit, hx⟩
    exact ⟨row, col, hrow, hcol, hbit, hx, hy⟩

/-- A drawn sprite flips the pixels it covers, keeps the others, and leaves in VF whether a covered pixel was on (R172,
R173). -/
theorem drawSprite_pixels (s : State) (x y : Reg) (n : Nibble) :
    let t := s.drawSprite x y (s.readBytes s.I.toNat n.toNat)
    (∀ px py, SpriteCovers s x y n px py → pixelAt t px py = !pixelAt s px py) ∧
    (∀ px py, ¬ SpriteCovers s x y n px py → pixelAt t px py = pixelAt s px py) ∧
    ((∃ px py, SpriteCovers s x y n px py ∧ pixelAt s px py = true) → t.V[VF] = 1) ∧
    ((¬ ∃ px py, SpriteCovers s x y n px py ∧ pixelAt s px py = true) → t.V[VF] = 0) := by
  have hlen : (s.readBytes s.I.toNat n.toNat).length ≤ 32 := by
    have := n.isLt
    rw [length_readBytes]
    omega
  obtain ⟨hflip, hkeep, hcollision⟩ := drawRows_spec s.V[x].toNat s.V[y].toNat _ (s.fb, false) hlen
  simp only [← spriteCovers_iff_covers] at hflip hkeep hcollision
  refine ⟨hflip, hkeep, fun hon => ?_, fun hoff => ?_⟩
  · rw [State.drawSprite_VF, hcollision.2 (.inr hon)]
    rfl
  · rw [State.drawSprite_VF, Bool.eq_false_iff.2 fun hc => hoff ((hcollision.1 hc).resolve_left Bool.false_ne_true)]
    rfl

/-- Settles O33: `drawSprite_pixels` where the sprite lies in memory, the checked read's fault where it does not. -/
theorem drawXorsSprite : Obligations.DrawXorsSprite := by
  intro s x y n
  refine ⟨hasEncoding_XY rfl, fun hin => ?_, fun hn hout => ?_⟩
  · obtain ⟨hflip, hkeep, hon, hoff⟩ := drawSprite_pixels s x y n
    exact ⟨_, exec_drw_inside x y hin, hflip, hkeep, hon, hoff, rfl, fun q hq => State.drawSprite_other s x y q _ hq, rfl,
      rfl, fun _ => rfl⟩
  · exact raises_of_exec (State.loadChecked_high s (s.drawSprite x y) hn hout) (by decide)

/-- Settles O34: a sprite of no bytes leaves the pixels and collides with nothing. -/
theorem drawNothing : Obligations.DrawNothing := fun s x y =>
  ⟨(s.drawSprite x y []).advance, exec_drw_inside x y (.inl rfl), rfl, State.drawSprite_VF s x y [], rfl,
    fun q hq => State.drawSprite_other s x y q [] hq, rfl, rfl, fun _ => rfl⟩

/-! ## Drawing again -/

/-- The covered pixels depend only on the two coordinates, `I` and memory (R170). -/
theorem spriteCovers_congr {s t : State} {x y : Reg} (hx : t.V[x] = s.V[x]) (hy : t.V[y] = s.V[y]) (hI : t.I = s.I)
    (hbytes : SameBytes s t) (n : Nibble) (px : Fin 64) (py : Fin 32) :
    SpriteCovers t x y n px py ↔ SpriteCovers s x y n px py := by
  simp only [SpriteCovers, hx, hy, hI, hbytes _]

/-- Settles O35: the second draw flips the same pixels as the first, and finds on those that were off. -/
theorem drawTwiceRestores : Obligations.DrawTwiceRestores := by
  intro s x y n hin
  obtain ⟨-, hdraw, -⟩ := drawXorsSprite s x y n
  obtain ⟨t, hexec, hflip, hkeep, -, -, -, -, -, hframe, hbytes⟩ := hdraw hin
  refine ⟨t, hexec, fun hx hy => ?_⟩
  have hI : t.I = s.I := by rw [hframe]
  obtain ⟨-, hdraw', -⟩ := drawXorsSprite t x y n
  obtain ⟨u, hexec', hflip', hkeep', hon', hoff', -⟩ := hdraw' (by rwa [hI])
  simp only [spriteCovers_congr hx hy hI hbytes] at hflip' hkeep' hon' hoff'
  refine ⟨u, hexec', fun px py => ?_, ?_, fun hall => hoff' ?_⟩
  · by_cases hc : SpriteCovers s x y n px py
    · rw [hflip' px py hc, hflip px py hc, Bool.not_not]
    · rw [hkeep' px py hc, hkeep px py hc]
  · rintro ⟨px, py, hc, hpx⟩
    exact hon' ⟨px, py, hc, by rw [hflip px py hc, hpx, Bool.not_false]⟩
  · rintro ⟨px, py, hc, hpx⟩
    rw [hflip px py hc, hall px py hc] at hpx
    exact Bool.false_ne_true hpx

/-! ## The frame taken by the host -/

/-- Settles O49: `consume_frame` writes `dirty` only, and the writers of `dirty` are CLS and DRW. -/
theorem consumeFrame : Obligations.ConsumeFrame := by
  refine ⟨fun s => ⟨_, rfl, rfl, fun _ _ => rfl, rfl, fun _ => rfl⟩, fun i s t h hs ht => ?_⟩
  obtain ⟨-, -, -, -, hwriters, -⟩ := onlyTheNamedInstructionsWrite i s t h
  exact hwriters (.inr fun e => Bool.false_ne_true (hs.symm.trans (e.symm.trans ht)))

end Sys2Proof.Machine
end

section
/-! The index register and memory operations (spec 44_index_memory.md R190–R194): LD I, addr and ADD I, Vx by their one
write; the two stores by one lemma on the checked store of a list of bytes; LD Vx, [I] by the registers it fills; and a
store undone by a load. -/

namespace Sys2Proof.Machine

/-! ## LD I, addr and ADD I, Vx -/

/-- The sum of `I` and a register wraps at 2^16 (R191). -/
theorem add_zextByte_eq_ofNat_mod (w : Word) (b : Byte) :
    w + zextByte b = BitVec.ofNat 16 ((w.toNat + b.toNat) % 65536) := by
  have hb := b.isLt
  apply BitVec.eq_of_toNat_eq
  rw [zextByte, BitVec.toNat_add, BitVec.toNat_setWidth, BitVec.toNat_ofNat]
  omega

/-- Settles O37: each instruction's one write is to `I`, of the word stated. -/
theorem indexRegisterWrites : Obligations.IndexRegisterWrites :=
  fun _ _ nnn => ⟨hasEncoding_encode (.ldI nnn), completes_onlyIndex rfl (zextAddr_eq_ofNat nnn), hasEncoding_XK rfl,
    completes_onlyIndex rfl (add_zextByte_eq_ofNat_mod _ _)⟩

/-! ## The stores -/

/-- An instruction that stores `n + 1` bytes from `I` on leaves them there and changes no other byte, or faults at its
lowest failing address (R56, R57, R60). No block of 16 bytes or fewer reaches both the font and the end of memory. -/
theorem completes_or_raises_of_storeChecked {i : Instr} {s : State} {bs : List Byte} {n : Nat} {v : Nat → Byte}
    (hexec : exec i s = s.storeChecked s.I.toNat bs) (hlen : bs.length = n + 1) (hn : n < 16)
    (hv : ∀ k, ∀ h : k < bs.length, bs[k] = v k) :
    (80 ≤ s.I.toNat → s.I.toNat + n ≤ 4095 → Completes i s fun t => OnlyBytes s.I.toNat (n + 1) v s t) ∧
    (s.I.toNat ≤ 79 → Raises i s .memoryAccess (.access s.I.toNat .fontWrite)) ∧
    (4095 < s.I.toNat + n → Raises i s .memoryAccess (.access (max s.I.toNat 4096) .write)) := by
  refine ⟨fun h80 hin => ?_, fun hfont => ?_, fun hout => ?_⟩
  · rw [← hlen]
    refine ⟨_, hexec.trans (s.storeChecked_ok h80 (by omega)), fun k hk => ?_, fun a ha => ?_, rfl, rfl⟩
    · exact (readByte_writeBytes_inside s bs _ k hk).trans (hv k hk)
    · exact readByte_writeBytes_outside s bs _ a ha
  · exact raises_of_exec (hexec.trans (s.storeChecked_font (by omega) hfont)) (by decide)
  · exact raises_of_exec (hexec.trans (s.storeChecked_high (by omega) (by omega) (by omega))) (by decide)

/-- Digit `k` of a byte, hundreds first, is its quotient by `10 ^ (2 - k)` modulo 10 (R192). -/
theorem getElem_decimalDigits (b : Byte) (k : Nat) (h : k < (decimalDigits b).length) :
    (decimalDigits b)[k] = BitVec.ofNat 8 (b.toNat / 10 ^ (2 - k) % 10) := by
  match k, h with
  | 0, _ =>
    have hhundreds : b.toNat / 100 % 10 = b.toNat / 100 := by
      have hb := b.isLt
      omega
    exact congrArg (BitVec.ofNat 8) hhundreds.symm
  | 1, _ => rfl
  | 2, _ => exact congrArg (BitVec.ofNat 8 <| · % 10) (Nat.div_one b.toNat).symm

/-- Settles O38: the checked store of the three digits. -/
theorem storeDecimal : Obligations.StoreDecimal :=
  fun s x => ⟨hasEncoding_XK rfl,
    completes_or_raises_of_storeChecked rfl rfl (by decide) (getElem_decimalDigits s.V[x])⟩

/-- Settles O39: the checked store of the registers V0 to Vx. -/
theorem storeRegisters : Obligations.StoreRegisters :=
  fun s x => ⟨hasEncoding_XK rfl,
    completes_or_raises_of_storeChecked rfl (length_regsUpTo s x) x.isLt (getElem_regsUpTo s x)⟩

/-! ## LD Vx, [I] -/

/-- The registers after `x + 1` bytes of memory were written to V0 to Vx (R194). -/
theorem getElem_writeRegs_readBytes (s : State) (a : Nat) (x q : Reg) :
    (s.writeRegs (s.readBytes a (x.val + 1))).V[q] = if q.val ≤ x.val then s.readByte (a + q.val) else s.V[q] := by
  rw [Fin.getElem_fin, State.writeRegs_V, getElem_writeRegsFrom]
  by_cases hq : q.val ≤ x.val
  · rw [dif_pos ⟨Nat.zero_le _, by rw [length_readBytes]; omega⟩, if_pos hq, getElem_readBytes, Nat.sub_zero]
  · rw [dif_neg (by rw [length_readBytes]; omega), if_neg hq, Fin.getElem_fin]

/-- Settles O40: `getElem_writeRegs_readBytes` where the block lies in memory, the checked read's fault where it does
not. -/
theorem loadRegisters : Obligations.LoadRegisters := by
  intro s x
  refine ⟨hasEncoding_XK rfl, fun hin => ?_, fun hout => ?_⟩
  · refine ⟨_, s.loadChecked_ok s.writeRegs (.inr (by rw [State.base]; omega)), fun q hq => ?_, fun q hq => ?_, rfl,
      rfl, fun _ => rfl⟩
    · exact (getElem_writeRegs_readBytes s s.I.toNat x q).trans (if_pos hq)
    · exact (getElem_writeRegs_readBytes s s.I.toNat x q).trans (if_neg (Nat.not_le.2 hq))
  · exact raises_of_exec (s.loadChecked_high s.writeRegs (Nat.le_add_left 1 _) (by rw [State.base]; omega)) (by decide)

/-- Settles O41: the load reads, at the `I` the store left, the bytes the store wrote; no register bears on either. -/
theorem storeThenLoadRegisters : Obligations.StoreThenLoadRegisters := by
  intro s x V h80 hin
  obtain ⟨-, hstore, -, -⟩ := storeRegisters s x
  obtain ⟨t, ht, hbytes, -, -, hframe⟩ := hstore h80 hin
  have hI : t.I = s.I := by rw [hframe]
  obtain ⟨-, hload, -⟩ := loadRegisters { t with V := V } x
  obtain ⟨u, hu, hloaded, hkept, -, -, -⟩ := hload (hI ▸ hin)
  refine ⟨t, u, ht, hu, fun q => ?_⟩
  by_cases hq : q.val ≤ x.val
  · rw [if_pos hq]
    calc u.V[q] = t.readByte (t.I.toNat + q.val) := hloaded q hq
      _ = t.readByte (s.I.toNat + q.val) := by rw [hI]
      _ = s.V[Fin.ofNat 16 q.val] := hbytes q.val (Nat.lt_succ_of_le hq)
      _ = s.V[q] := congrArg (s.V[·]) (Fin.ofNat_val_eq_self q)
  · rw [if_neg hq, hkept q (Nat.not_le.1 hq)]

end Sys2Proof.Machine
end

section
/-! Timers and keypad (spec 45_timers_keys.md R210–R217): the timer transfers by their one write; the two key skips by the
key their register names; LD Vx, K with and without a key pressed; and the wait it makes over any number of steps. -/

namespace Sys2Proof.Machine

/-! ## The timer transfers -/

/-- Settles O43: each instruction's one write is of the value before the step's tick. -/
theorem timerTransfers : Obligations.TimerTransfers :=
  fun s x => ⟨hasEncoding_XK rfl, completes_onlyReg rfl,
    hasEncoding_XK rfl, ⟨(s.writeDT s.V[x]).advance, rfl, rfl, rfl, rfl, fun _ => rfl⟩,
    hasEncoding_XK rfl, ⟨(s.writeST s.V[x]).advance, rfl, rfl, rfl, rfl, fun _ => rfl⟩⟩

/-! ## SKP and SKNP -/

/-- SKP skips if the key that `V[x]` names is pressed (R213). -/
theorem exec_skp_of_key {s : State} {x : Reg} {k : Fin 16} (h : s.V[x].toNat = k.val) :
    exec (.skp x) s = .next (s.skipIf s.keys[k]) := by
  simp only [exec, execSkp, State.readV_eq, State.key_of_lt s _ k h]

/-- SKNP skips if the key that `V[x]` names is not pressed (R214). -/
theorem exec_sknp_of_key {s : State} {x : Reg} {k : Fin 16} (h : s.V[x].toNat = k.val) :
    exec (.sknp x) s = .next (s.skipIf !s.keys[k]) := by
  simp only [exec, execSknp, State.readV_eq, State.key_of_lt s _ k h]

/-- SKP where `V[x]` names no key (R217). -/
theorem exec_skp_of_high {s : State} {x : Reg} (h : 15 < s.V[x].toNat) :
    exec (.skp x) s = s.raise .keyIndex (.key s.V[x]) := by
  simp only [exec, execSkp, State.readV_eq, State.key_none s _ h]

/-- SKNP where `V[x]` names no key (R217). -/
theorem exec_sknp_of_high {s : State} {x : Reg} (h : 15 < s.V[x].toNat) :
    exec (.sknp x) s = s.raise .keyIndex (.key s.V[x]) := by
  simp only [exec, execSknp, State.readV_eq, State.key_none s _ h]

/-- The `pc` of a skip on a negated condition (R214). -/
theorem skipIf_not_pc (s : State) (c : Bool) : (s.skipIf !c).pc = if c then s.pc + 2 else s.pc + 4 := by
  cases c <;> rfl

/-- Settles O44: by whether `V[x]` names a key. -/
theorem keySkips : Obligations.KeySkips := by
  refine fun s x => ⟨hasEncoding_XK rfl, hasEncoding_XK rfl, fun k hk => ⟨?_, ?_⟩, fun hhigh => ⟨?_, ?_⟩⟩
  · exact completes_onlyPc (exec_skp_of_key hk) rfl
  · exact completes_onlyPc (exec_sknp_of_key hk) (skipIf_not_pc s _)
  · exact raises_of_exec (exec_skp_of_high hhigh) (by decide)
  · exact raises_of_exec (exec_sknp_of_high hhigh) (by decide)

/-! ## LD Vx, K -/

/-- `k` is the lowest pressed key (R215). -/
def LowestPressed (keys : Vector Bool 16) (k : Fin 16) : Prop :=
  keys[k] = true ∧ ∀ j : Fin 16, j < k → keys[j] = false

/-- LD Vx, K with a key pressed takes the lowest and ends the wait (R215). -/
theorem exec_ldVxK_of_lowestPressed {s : State} {k : Fin 16} (x : Reg) (h : LowestPressed s.keys k) :
    exec (.ldVxK x) s = .next ((s.writeV x (BitVec.ofNat 8 k.val)).setAwaiting false).advance := by
  simp only [exec, execLdVxK, s.firstKey_eq k h.1 h.2]

/-- LD Vx, K with no key pressed waits (R215). -/
theorem exec_ldVxK_noKeyPressed {s : State} (x : Reg) (h : ∀ k : Fin 16, s.keys[k] = false) :
    exec (.ldVxK x) s = .next (s.setAwaiting true) := by
  simp only [exec, execLdVxK, s.firstKey_none h]

/-- Settles O45: by whether a key is pressed. -/
theorem keyWait : Obligations.KeyWait := by
  refine fun s x => ⟨hasEncoding_XK rfl, fun k hk hlow => ?_, fun hnone => ?_⟩
  · exact ⟨_, exec_ldVxK_of_lowestPressed x ⟨hk, hlow⟩, State.readV_writeV_self s x _,
      fun q hq => State.readV_writeV_other s _ hq, rfl, rfl, rfl, fun _ => rfl⟩
  · exact ⟨_, exec_ldVxK_noKeyPressed x hnone, rfl, fun _ => rfl⟩

/-! ## The wait over many steps -/

/-- The next step of `s` runs LD Vx, K. -/
structure AtKeyWait (x : Reg) (s : State) : Prop where
  fault : s.fault = none
  inImage : inBounds s.pc s.progLen = true
  word : decode s.cfg.bnnnMode s.fetchWord = .ok (.ldVxK x)

/-- What any number of waiting steps can do: count the timers down, start the wait, take new inputs, close `load`; a wait
that has started goes on. -/
structure WaitedFrom (s t : State) : Prop where
  frame : t = { s with
    DT := t.DT, ST := t.ST, awaitingKey := t.awaitingKey, keys := t.keys, tick := t.tick, rnd := t.rnd,
    draws := t.draws, loadOpen := t.loadOpen }
  DT_le : t.DT.toNat ≤ s.DT.toNat
  ST_le : t.ST.toNat ≤ s.ST.toNat
  awaiting : s.awaitingKey = true → t.awaitingKey = true

theorem WaitedFrom.refl (s : State) : WaitedFrom s s := ⟨rfl, le_rfl, le_rfl, id⟩

theorem WaitedFrom.trans {s t u : State} (h : WaitedFrom s t) (h' : WaitedFrom t u) : WaitedFrom s u where
  frame := by
    rw [h'.frame, h.frame]
  DT_le := h'.DT_le.trans h.DT_le
  ST_le := h'.ST_le.trans h.ST_le
  awaiting := h'.awaiting ∘ h.awaiting

theorem WaitedFrom.keeps {s t : State} (h : WaitedFrom s t) :
    t.pc = s.pc ∧ t.V = s.V ∧ t.mem = s.mem ∧ t.fb = s.fb := by
  rw [h.frame]
  exact ⟨rfl, rfl, rfl, rfl⟩

/-- Waiting keeps the core at its instruction (R216): what the next step fetches has not changed. -/
theorem AtKeyWait.of_waitedFrom {x : Reg} {s t : State} (hs : AtKeyWait x s) (h : WaitedFrom s t) : AtKeyWait x t := by
  rw [h.frame]
  exact { hs with }

/-- The step of a core at a key wait, under inputs under which the instruction records no fault (R100). -/
theorem AtKeyWait.stepWith_eq {x : Reg} {s t : State} {a : StepInputs} (hs : AtKeyWait x s)
    (h : exec (.ldVxK x) (s.setInputs a.keys a.tick a.rnd) = .next t) (ht : t.fault = none) :
    stepWith a s = .next t.clock.closeLoad.nextInputs := by
  rw [← State.commit_running ht]
  exact step_run (s := s.setInputs a.keys a.tick a.rnd) hs.fault hs.inImage hs.word h

/-- A timer after the clock bookkeeping has not gone up (R109, R239). -/
theorem toNat_ite_decrementTimer_le (tick : Bool) (b : Byte) :
    (if tick then decrementTimer b else b).toNat ≤ b.toNat := by
  cases tick with
  | false => exact le_rfl
  | true => exact (toNat_decrementTimer b).trans_le (Nat.sub_le _ _)

/-- A step with no key pressed waits (R215, R216). -/
theorem AtKeyWait.stepWith_noKeyPressed {x : Reg} {s : State} {a : StepInputs} (hs : AtKeyWait x s)
    (ha : ∀ k : Fin 16, a.keys[k] = false) :
    ∃ t, stepWith a s = .next t ∧ WaitedFrom s t ∧ t.awaitingKey = true :=
  ⟨_, hs.stepWith_eq (exec_ldVxK_noKeyPressed x ha) hs.fault,
    ⟨rfl, toNat_ite_decrementTimer_le _ _, toNat_ite_decrementTimer_le _ _, fun _ => rfl⟩, rfl⟩

/-- Any number of steps with no key pressed wait (R216, R270). -/
theorem AtKeyWait.runWith_noKeyPressed {x : Reg} {inputs : List StepInputs}
    (hin : ∀ a ∈ inputs, ∀ k : Fin 16, a.keys[k] = false) {s : State} (hs : AtKeyWait x s) :
    ∃ t, runWith inputs s = .next t ∧ WaitedFrom s t ∧ (inputs ≠ [] → t.awaitingKey = true) := by
  induction inputs generalizing s with
  | nil => exact ⟨s, rfl, .refl s, absurd rfl⟩
  | cons a rest ih =>
    obtain ⟨hfirst, hrest⟩ := List.forall_mem_cons.1 hin
    obtain ⟨t, ht, hst, hawaiting⟩ := hs.stepWith_noKeyPressed hfirst
    obtain ⟨u, hu, htu, -⟩ := ih hrest (hs.of_waitedFrom hst)
    refine ⟨u, ?_, hst.trans htu, fun _ => htu.awaiting hawaiting⟩
    simp only [runWith, ht, hu]

/-- A step with a key pressed completes the instruction with the lowest one (R215). -/
theorem AtKeyWait.stepWith_keyPressed {x : Reg} {s : State} {a : StepInputs} {k : Fin 16} (hs : AtKeyWait x s)
    (hk : LowestPressed a.keys k) :
    ∃ u, stepWith a s = .next u ∧ u.V[x] = BitVec.ofNat 8 k.val ∧ u.pc = s.pc + 2 ∧ u.awaitingKey = false :=
  ⟨_, hs.stepWith_eq (exec_ldVxK_of_lowestPressed x hk) hs.fault, State.readV_writeV_self s x _, rfl, rfl⟩

/-- Settles O46: `AtKeyWait.runWith_noKeyPressed` for the waiting steps, after which the core is still at the same word,
and the step with a key pressed from there. -/
theorem keyWaitParks : Obligations.KeyWaitParks := by
  intro s x inputs hf hlo hhi hd hin
  have hword : s.fetchWord = wordAtPc s := s.fetchWord_eq
  have hs : AtKeyWait x s := ⟨hf, (inBounds_iff _ _).2 ⟨hlo, hhi⟩, hword ▸ hd⟩
  obtain ⟨t, hrun, hwaited, hawaiting⟩ := hs.runWith_noKeyPressed hin
  have ht : AtKeyWait x t := hs.of_waitedFrom hwaited
  obtain ⟨hpc, hV, hmem, hfb⟩ := hwaited.keeps
  refine ⟨t, hrun, ht.fault, hpc, hV, hmem, hfb, hwaited.DT_le, hwaited.ST_le, hawaiting, fun a k hk hlow => ?_⟩
  exact hpc ▸ ht.stepWith_keyPressed ⟨hk, hlow⟩

end Sys2Proof.Machine
end

section
/-! Fault entry and the timer tick over a step (spec 60_exceptions.md R231–R239): the step after which a fault is recorded
wrote the record and nothing else; the kind of fault each instruction can raise; and one decrement of each timer over a
step that raises nothing, from what the instruction left in it. -/

namespace Sys2Proof.Machine

/-! ## Fault entry -/

/-- A step after which a fault is recorded entered it, before fetch or later (R233, R234). -/
theorem step_raised {s t : State} {r : FaultRecord} (h : step s = .next t) (hr : t.fault = some r) :
    s.fault = none ∧ (t = s.setFault (s.faultRecord .outOfBounds .empty) ∨ RaisedFrom s t) := by
  obtain ⟨hf, ⟨-, ht⟩ | ⟨-, -, ht⟩ | ⟨-, i, u, -, -, ⟨hraised, rfl⟩ | ⟨he, rfl⟩⟩⟩ := step_cases h
  · exact ⟨hf, .inl ht⟩
  · exact ⟨hf, .inr ⟨.unknownOpcode, .empty, by decide, rfl, ht⟩⟩
  · exact ⟨hf, .inr hraised⟩
  · exact absurd ((he.fault.trans hf).symm.trans hr) (Option.some_ne_none r).symm

/-- Settles O12: the record before fetch as it stands, every other by `RaisedFrom.record`. -/
theorem faultEntryWritesRecordOnly : Obligations.FaultEntryWritesRecordOnly := by
  intro s t r h hr
  obtain ⟨hf, rfl | hraised⟩ := step_raised h hr
  · obtain rfl := Option.some.inj hr
    exact ⟨hf, rfl, rfl, fun _ => rfl, absurd rfl, rfl, rfl, rfl⟩
  · obtain ⟨r', rfl, hkind, hpc, hopcode, hinfo⟩ := hraised.record
    obtain rfl := Option.some.inj hr
    exact ⟨hf, rfl, hpc, fun e => absurd e hkind, fun _ => hopcode, hinfo, rfl, rfl⟩

/-! ## Which instruction raises which fault -/

/-- The kind of fault an instruction can raise at execute, if any, on a machine whose `BNNN_MODE` is `m` (R231; for JP V0,
addr log entry 6). -/
def faultKindOf (m : BnnnMode) : Instr → Option FaultKind
  | .call _ => some .stackOverflow
  | .ret => some .stackUnderflow
  | .drw _ _ _ | .ldB _ | .storeRegs _ | .loadRegs _ => some .memoryAccess
  | .skp _ | .sknp _ => some .keyIndex
  | .jpV0 _ => if m = .fault then some .unknownOpcode else none
  | _ => none

/-- The fault recorded in `t`, if any, is that of `s` or one of the kind `k`. -/
def RecordsOnly (k : Option FaultKind) (s t : State) : Prop :=
  ∀ r, t.fault = some r → s.fault = some r ∨ k = some r.kind

/-- An outcome that is fault entry records a fault of its kind. -/
theorem recordsOnly_of_raise {s t : State} {o : Host.Outcome State Fault Refusal} {kind : FaultKind} {info : FaultInfo}
    (ho : o = s.raise kind info) (h : o = .next t) : RecordsOnly (some kind) s t := by
  obtain rfl := Host.Outcome.next.inj (ho.symm.trans h)
  exact fun r hr => .inr (congrArg (Option.map FaultRecord.kind) hr)

/-- An outcome that leaves the record as it was records no fault. -/
theorem recordsOnly_of_next {k : Option FaultKind} {s t u : State} {o : Host.Outcome State Fault Refusal}
    (ho : o = .next u) (h : o = .next t) (hu : u.fault = s.fault) : RecordsOnly k s t := by
  obtain rfl := Host.Outcome.next.inj (ho.symm.trans h)
  exact fun r hr => .inl (hu.symm.trans hr)

/-- A checked store raises MemoryAccessFault only (R56, R57). -/
theorem storeChecked_recordsOnly {s t : State} {base : Nat} {bs : List Byte} (h : s.storeChecked base bs = .next t) :
    RecordsOnly (some .memoryAccess) s t := by
  unfold State.storeChecked at h
  split at h
  · exact recordsOnly_of_raise rfl h
  · exact recordsOnly_of_next rfl h rfl

/-- A checked block read raises MemoryAccessFault only (R56). -/
theorem loadChecked_recordsOnly {s t : State} {base n : Nat} {use : List Byte → State}
    (huse : ∀ bs, (use bs).fault = s.fault) (h : s.loadChecked base n use = .next t) :
    RecordsOnly (some .memoryAccess) s t := by
  unfold State.loadChecked at h
  split at h
  · exact recordsOnly_of_raise rfl h
  · exact recordsOnly_of_next rfl h (huse _)

/-- JP V0, addr raises a fault only where it does not exist (R79, R127). -/
theorem exec_jpV0_recordsOnly {s t : State} {nnn : Addr12} (h : exec (.jpV0 nnn) s = .next t) :
    RecordsOnly (faultKindOf s.cfg.bnnnMode (.jpV0 nnn)) s t := by
  simp only [exec, execJpV0] at h
  split at h
  · exact recordsOnly_of_next rfl h rfl
  · next hmode =>
    rw [faultKindOf, if_pos hmode]
    exact recordsOnly_of_raise rfl h

/-- An instruction raises a fault of the one kind that R231 gives it, or none. -/
theorem exec_recordsOnly {i : Instr} {s t : State} (h : exec i s = .next t) :
    RecordsOnly (faultKindOf s.cfg.bnnnMode i) s t := by
  cases i with
  | call nnn =>
    rcases sp_eq_full_or_lt s with hfull | hlt
    · exact recordsOnly_of_raise (exec_call_full s nnn hfull) h
    · exact recordsOnly_of_next (exec_call_of_lt s nnn hlt) h rfl
  | ret =>
    rcases sp_eq_zero_or_succ s with h0 | ⟨j, hj⟩
    · exact recordsOnly_of_raise (exec_ret_empty s h0) h
    · exact recordsOnly_of_next (exec_ret_of_succ s j hj) h rfl
  | skp x =>
    rcases keyIndex_cases s.V[x] with ⟨k, hk⟩ | hhigh
    · exact recordsOnly_of_next (exec_skp_of_key hk) h rfl
    · exact recordsOnly_of_raise (exec_skp_of_high hhigh) h
  | sknp x =>
    rcases keyIndex_cases s.V[x] with ⟨k, hk⟩ | hhigh
    · exact recordsOnly_of_next (exec_sknp_of_key hk) h rfl
    · exact recordsOnly_of_raise (exec_sknp_of_high hhigh) h
  | drw x y n => exact loadChecked_recordsOnly (use := s.drawSprite x y) (fun _ => rfl) h
  | loadRegs x => exact loadChecked_recordsOnly (use := s.writeRegs) (fun _ => rfl) h
  | ldB x | storeRegs x => exact storeChecked_recordsOnly h
  | jpV0 nnn => exact exec_jpV0_recordsOnly h
  | addReg x y | subReg x y | shr x y | subnReg x y | shl x y =>
    exact recordsOnly_of_next rfl h (State.writeFlagged_fault s x y _ _)
  | ldVxK x =>
    simp only [exec, execLdVxK] at h
    split at h <;> exact recordsOnly_of_next rfl h rfl
  | _ => exact recordsOnly_of_next rfl h rfl

/-- The kind of a record and the code it has (R231). -/
theorem kind_and_code {r : FaultRecord} {k : FaultKind} (h : some k = some r.kind) : r.kind = k ∧ r.code = k.code := by
  obtain rfl := Option.some.inj h
  exact ⟨rfl, rfl⟩

/-- Settles O13: `exec_recordsOnly`, instruction by instruction; the code is that of the kind. -/
theorem faultKindsByInstruction : Obligations.FaultKindsByInstruction := by
  intro i s t r hf h hr
  have hkind : faultKindOf s.cfg.bnnnMode i = some r.kind :=
    (exec_recordsOnly h r hr).resolve_left fun hs => Option.some_ne_none r (hs.symm.trans hf)
  cases i with
  | call a =>
    obtain ⟨hk, hc⟩ := kind_and_code hkind
    exact .inl ⟨hk, hc, a, rfl⟩
  | ret =>
    obtain ⟨hk, hc⟩ := kind_and_code hkind
    exact .inr (.inl ⟨hk, hc, rfl⟩)
  | drw _ _ _ | ldB _ | storeRegs _ | loadRegs _ =>
    obtain ⟨hk, hc⟩ := kind_and_code hkind
    exact .inr (.inr (.inl ⟨hk, hc, by simp⟩))
  | skp _ | sknp _ =>
    obtain ⟨hk, hc⟩ := kind_and_code hkind
    exact .inr (.inr (.inr (.inl ⟨hk, hc, by simp⟩)))
  | jpV0 a =>
    obtain ⟨hmode, hunknown⟩ := Option.ite_none_right_eq_some.1 hkind
    obtain ⟨hk, hc⟩ := kind_and_code hunknown
    exact .inr (.inr (.inr (.inr ⟨hk, hc, hmode, a, rfl⟩)))
  | _ => exact absurd hkind.symm (Option.some_ne_none r.kind)

/-! ## The timer tick -/

/-- A timer after the clock bookkeeping, as a number (R109, R239). -/
theorem toNat_ite_decrementTimer (tick : Bool) (b : Byte) :
    (if tick then decrementTimer b else b).toNat = if tick then b.toNat - 1 else b.toNat := by
  cases tick with
  | false => rfl
  | true => exact toNat_decrementTimer b

/-- The timers after a step that raises nothing: what the instruction left in them, counted down once if `tick` is 1. -/
theorem step_timers {s t : State} {i : Instr} (h : step s = .next t) (ht : t.fault = none)
    (hd : decode s.cfg.bnnnMode (wordAtPc s) = .ok i) : ∃ u, exec i s = .next u ∧
      t.DT.toNat = (if s.tick then u.DT.toNat - 1 else u.DT.toNat) ∧
      t.ST.toNat = (if s.tick then u.ST.toNat - 1 else u.ST.toNat) := by
  obtain ⟨-, ⟨-, rfl⟩ | ⟨-, -, rfl⟩ | ⟨-, j, u, hj, hexec, ⟨hraised, rfl⟩ | ⟨he, rfl⟩⟩⟩ := step_cases h
  · exact absurd ht (Option.some_ne_none _)
  · exact absurd ht (Option.some_ne_none _)
  · obtain ⟨kind, info, -, -, rfl⟩ := hraised
    exact absurd ht (Option.some_ne_none _)
  · have hword : s.fetchWord = wordAtPc s := s.fetchWord_eq
    obtain rfl := Except.ok.inj (hj.symm.trans (hword ▸ hd))
    refine ⟨u, hexec, ?_⟩
    rw [← he.tick]
    exact ⟨toNat_ite_decrementTimer _ _, toNat_ite_decrementTimer _ _⟩

/-- Settles O14: `step_timers`, where the instruction left `V[x]` in the timer it writes, and the other as it was. -/
theorem timersTickOncePerStep : Obligations.TimersTickOncePerStep := by
  intro s t i h ht hd
  obtain ⟨u, hexec, hDT, hST⟩ := step_timers h ht hd
  obtain ⟨-, -, hwritesDT, hwritesST, -⟩ := onlyTheNamedInstructionsWrite i s u hexec
  refine ⟨?_, fun hi => ?_, ?_, fun hi => ?_⟩
  · rintro x rfl
    obtain rfl := Host.Outcome.next.inj hexec
    exact hDT
  · have hkept : u.DT = s.DT := not_not.1 fun hne => (hwritesDT hne).elim hi
    rwa [hkept] at hDT
  · rintro x rfl
    obtain rfl := Host.Outcome.next.inj hexec
    exact hST
  · have hkept : u.ST = s.ST := not_not.1 fun hne => (hwritesST hne).elim hi
    rwa [hkept] at hST

end Sys2Proof.Machine
end

section
/-! The host's `load` (spec 70_reset_and_hazards.md R262–R264, 60_exceptions.md R245): its three answers, one lemma each;
that a step and a successful load both leave a machine that refuses it; and the step of a machine with no image. -/

namespace Sys2Proof.Machine

/-! ## The three answers of `load` -/

/-- The load of an image that fits, where load is allowed (R262). -/
theorem load_fits {s : State} {bytes : List Byte} (hf : s.fault = none) (ho : s.loadOpen = true)
    (hlen : bytes.length ≤ 3584) : s.load bytes = .next { s.writeBytes 512 bytes with
      progLen := ⟨bytes.length, Nat.lt_succ_of_le hlen⟩, loadOpen := false } := by
  rw [State.load, if_pos ⟨hf, ho⟩, dif_pos hlen]

/-- The load of an image that does not fit, where load is allowed (R245). -/
theorem load_tooLarge {s : State} {bytes : List Byte} (hf : s.fault = none) (ho : s.loadOpen = true)
    (hlen : 3584 < bytes.length) : s.load bytes = .fault .programTooLarge := by
  rw [State.load, if_pos ⟨hf, ho⟩, dif_neg (Nat.not_le_of_lt hlen)]

/-- The load on a machine that is halted, or that has stepped or been loaded before (R264). -/
theorem load_refused {s : State} (hs : s.fault ≠ none ∨ s.loadOpen = false) (bytes : List Byte) :
    s.load bytes = .refused .loadNotAllowed := by
  rw [State.load, if_neg]
  rintro ⟨hf, ho⟩
  rcases hs with hhalted | hclosed
  · exact hhalted hf
  · exact Bool.false_ne_true (hclosed.symm.trans ho)

/-! ## The state after a load that does not succeed -/

/-- A load answered with ProgramTooLarge leaves the state as it was (R245). -/
theorem HostAction.apply_load_of_fault {s : State} {bytes : List Byte} {e : LoadError} (h : s.load bytes = .fault e) :
    HostAction.apply s (.load bytes) = s := by
  simp only [HostAction.apply, h]

/-- A refused load leaves the state as it was (R264). -/
theorem HostAction.apply_load_of_refused {s : State} {bytes : List Byte} {e : Refusal}
    (h : s.load bytes = .refused e) : HostAction.apply s (.load bytes) = s := by
  simp only [HostAction.apply, h]

/-! ## What a successful load writes -/

/-- Settles O47: an image that fits is written to 512 and on, where `readByte_writeBytes_inside` and `_outside` read it; a
longer one is `load_tooLarge`. -/
theorem loadCopiesImage : Obligations.LoadCopiesImage := by
  refine fun s bytes hf ho => ⟨fun hlen => ?_, fun hlen => ?_⟩
  · exact ⟨_, load_fits hf ho hlen, rfl, readByte_writeBytes_inside s bytes 512,
      readByte_writeBytes_outside s bytes 512, rfl⟩
  · have hload := load_tooLarge hf ho hlen
    exact ⟨hload, HostAction.apply_load_of_fault hload⟩

/-! ## When `load` is refused -/

/-- After a step, either a fault is recorded or `load` is closed (R264). -/
theorem step_haltsOrClosesLoad {s t : State} (h : step s = .next t) : t.fault ≠ none ∨ t.loadOpen = false := by
  obtain ⟨-, ⟨-, rfl⟩ | ⟨-, -, rfl⟩ | ⟨-, i, u, -, -, ⟨⟨kind, info, -, -, rfl⟩, rfl⟩ | ⟨-, rfl⟩⟩⟩ := step_cases h
  · exact .inl (Option.some_ne_none _)
  · exact .inl (Option.some_ne_none _)
  · exact .inl (Option.some_ne_none _)
  · exact .inr rfl

/-- A successful load closes `load` (R264). -/
theorem load_closesLoad {s t : State} {bytes : List Byte} (h : s.load bytes = .next t) : t.loadOpen = false := by
  obtain ⟨-, -, hlen, rfl⟩ := load_next h
  rfl

/-- No address lies in the image of a machine that has none (R102, R264). -/
theorem inBounds_of_progLen_zero {l : Fin 3585} (hl : l.val = 0) (pc : Word) : inBounds pc l = false := by
  rw [← Bool.not_eq_true, inBounds_iff]
  omega

/-- Settles O48: a step and a successful load both leave what `load_refused` asks for; with no image every `pc` is out of
bounds. -/
theorem loadOnlyOnce : Obligations.LoadOnlyOnce := by
  refine ⟨fun s t bytes h => ?_, fun s t first bytes h => ?_, fun c => rfl, fun s hf hl => ?_⟩
  · exact load_refused (step_haltsOrClosesLoad h) bytes
  · have hrefused := load_refused (.inr (load_closesLoad h)) bytes
    exact ⟨hrefused, HostAction.apply_load_of_refused hrefused⟩
  · exact step_outOfBounds hf (inBounds_of_progLen_zero hl s.pc)

end Sys2Proof.Machine
end
